-- ==== Sys2Proof/Word.lean ====
section
/-! DEFINITION. The machine's word sizes (spec/00_scope.md R3; glossary: half-word, word). -/

namespace Sys2Proof

/-- A byte of Memory: 8 bits (R3). -/
abbrev Byte := BitVec 8

/-- A half-word: 16 bits, the unit of instruction fetch (R36). -/
abbrev Half := BitVec 16

/-- A word: 32 bits, the width of a register, of an address and of a datum (R3). -/
abbrev Word := BitVec 32

end Sys2Proof
end

