-- ==== Sys2Proof/Syntax.lean ====
section
/-! DEFINITION. The instructions as syntax: one constructor per row of spec/opcode_table.json, with the fields the decoder
hands to the execution unit (spec/30_encoding.md R53, R59, R63). -/

namespace Sys2Proof

/-- A register index 0 .. 31 (R10, R15): with this type the index is in range by construction. -/
abbrev Reg := Fin 32

/-- The bits of one fetched instruction: a half-word (compressed) or a word (standard) (R50, R52). -/
inductive InstBits where
  | half (h : Half)
  | word (w : Word)
  deriving DecidableEq, Repr

/-- `ilen`, the byte length of an instruction with these bits (R52). -/
def InstBits.ilen : InstBits → Word
  | .half _ => 2
  | .word _ => 4

/-- The 6-bit opcode: bits 5..0 of the first half-word (R51). -/
def InstBits.opcode : InstBits → BitVec 6
  | .half h => h.extractLsb' 0 6
  | .word w => w.extractLsb' 0 6

/-- The format tags of R53. -/
inductive Format where
  | r | i | s | u | sys | cr | ci | cl | cs | cu | csys
  deriving DecidableEq, Repr

/-- The byte length of an instruction of a format (R53). -/
def Format.ilen : Format → Word
  | .r | .i | .s | .u | .sys => 4
  | .cr | .ci | .cl | .cs | .cu | .csys => 2

/-- The 55 instructions (R59). A register field holds the register's number, a primed selector already translated (R57);
`imm` and `n` hold the 32-bit operand, already extended or shifted as R58 says (R63, log 19). -/
inductive Instr where
  -- Register move (spec/40_arith_logic.md R103).
  | cMv (rd rs2 : Reg)
  -- Arithmetic and logic, format R (R83 to R87).
  | add (rd rs1 rs2 : Reg)
  | sub (rd rs1 rs2 : Reg)
  | and (rd rs1 rs2 : Reg)
  | or (rd rs1 rs2 : Reg)
  | xor (rd rs1 rs2 : Reg)
  -- Shifts, format R (spec/41_shifts.md R112 to R114).
  | sll (rd rs1 rs2 : Reg)
  | srl (rd rs1 rs2 : Reg)
  | sra (rd rs1 rs2 : Reg)
  -- Arithmetic and logic, format I (R88 to R92).
  | addi (rd rs1 : Reg) (imm : Word)
  | subi (rd rs1 : Reg) (imm : Word)
  | andi (rd rs1 : Reg) (imm : Word)
  | ori (rd rs1 : Reg) (imm : Word)
  | xori (rd rs1 : Reg) (imm : Word)
  -- Shifts, format I (R115 to R117).
  | slli (rd rs1 : Reg) (imm : Word)
  | srli (rd rs1 : Reg) (imm : Word)
  | srai (rd rs1 : Reg) (imm : Word)
  -- Arithmetic and logic, format CR (R93 to R97).
  | cAdd (rd rs2 : Reg)
  | cSub (rd rs2 : Reg)
  | cAnd (rd rs2 : Reg)
  | cOr (rd rs2 : Reg)
  | cXor (rd rs2 : Reg)
  -- Shifts, format CR (R118 to R120).
  | cSll (rd rs2 : Reg)
  | cSrl (rd rs2 : Reg)
  | cSra (rd rs2 : Reg)
  -- Arithmetic and logic, format CI (R98 to R102).
  | cAddi (rd : Reg) (imm : Word)
  | cSubi (rd : Reg) (imm : Word)
  | cAndi (rd : Reg) (imm : Word)
  | cOri (rd : Reg) (imm : Word)
  | cXori (rd : Reg) (imm : Word)
  -- Shifts, format CI (R121 to R123).
  | cSlli (rd : Reg) (imm : Word)
  | cSrli (rd : Reg) (imm : Word)
  | cSrai (rd : Reg) (imm : Word)
  -- Immediate loads (spec/42_load_immediate.md R131 to R134).
  | li (rd : Reg) (imm : Word)
  | cLi (rd : Reg) (imm : Word)
  | lui (rd : Reg) (imm : Word)
  | cLui (rd : Reg) (imm : Word)
  -- Loads and stores (spec/44_load_store.md R161 to R164); in a store `rs1` is the value and `rs2` the base.
  | load (rd rs1 : Reg) (imm : Word)
  | cLoad (rd rs1 : Reg) (imm : Word)
  | store (rs1 rs2 : Reg) (imm : Word)
  | cStore (rs1 rs2 : Reg) (imm : Word)
  -- Branches (spec/43_branches.md R142 to R151).
  | bez (rs1 : Reg) (imm : Word)
  | bnz (rs1 : Reg) (imm : Word)
  | beq (rs1 rs2 : Reg) (imm : Word)
  | bne (rs1 rs2 : Reg) (imm : Word)
  | blt (rs1 rs2 : Reg) (imm : Word)
  | bge (rs1 rs2 : Reg) (imm : Word)
  | bltu (rs1 rs2 : Reg) (imm : Word)
  | bgeu (rs1 rs2 : Reg) (imm : Word)
  | cBez (rs1 : Reg) (imm : Word)
  | cBnz (rs1 : Reg) (imm : Word)
  -- System (spec/45_system.md R175, R176, R178, R179).
  | call (n : Word)
  | cCall (n : Word)
  | brk
  | cBrk
  deriving DecidableEq, Repr

/-- The format of an instruction (R59). -/
def Instr.format : Instr → Format
  | .add _ _ _ | .sub _ _ _ | .and _ _ _ | .or _ _ _ | .xor _ _ _ | .sll _ _ _ | .srl _ _ _
  | .sra _ _ _ => .r
  | .addi _ _ _ | .subi _ _ _ | .andi _ _ _ | .ori _ _ _ | .xori _ _ _ | .slli _ _ _ | .srli _ _ _
  | .srai _ _ _ | .li _ _ | .load _ _ _ => .i
  | .store _ _ _ | .bez _ _ | .bnz _ _ | .beq _ _ _ | .bne _ _ _ | .blt _ _ _ | .bge _ _ _
  | .bltu _ _ _ | .bgeu _ _ _ => .s
  | .lui _ _ => .u
  | .call _ | .brk => .sys
  | .cMv _ _ | .cAdd _ _ | .cSub _ _ | .cAnd _ _ | .cOr _ _ | .cXor _ _ | .cSll _ _ | .cSrl _ _
  | .cSra _ _ => .cr
  | .cAddi _ _ | .cSubi _ _ | .cAndi _ _ | .cOri _ _ | .cXori _ _ | .cSlli _ _ | .cSrli _ _
  | .cSrai _ _ | .cLi _ _ => .ci
  | .cLoad _ _ _ => .cl
  | .cStore _ _ _ | .cBez _ _ | .cBnz _ _ => .cs
  | .cLui _ _ => .cu
  | .cCall _ | .cBrk => .csys

/-- The opcode of an instruction (R59). -/
def Instr.opcode : Instr → BitVec 6
  | .cMv _ _ => 0x01
  | .add _ _ _ => 0x02
  | .sub _ _ _ => 0x04
  | .and _ _ _ => 0x06
  | .or _ _ _ => 0x08
  | .xor _ _ _ => 0x0a
  | .sll _ _ _ => 0x0c
  | .srl _ _ _ => 0x0e
  | .sra _ _ _ => 0x10
  | .addi _ _ _ => 0x12
  | .subi _ _ _ => 0x14
  | .andi _ _ _ => 0x16
  | .ori _ _ _ => 0x18
  | .xori _ _ _ => 0x1a
  | .slli _ _ _ => 0x1c
  | .srli _ _ _ => 0x1e
  | .srai _ _ _ => 0x20
  | .cAdd _ _ => 0x03
  | .cSub _ _ => 0x05
  | .cAnd _ _ => 0x07
  | .cOr _ _ => 0x09
  | .cXor _ _ => 0x0b
  | .cSll _ _ => 0x0d
  | .cSrl _ _ => 0x0f
  | .cSra _ _ => 0x11
  | .cAddi _ _ => 0x13
  | .cSubi _ _ => 0x15
  | .cAndi _ _ => 0x17
  | .cOri _ _ => 0x19
  | .cXori _ _ => 0x1b
  | .cSlli _ _ => 0x1d
  | .cSrli _ _ => 0x1f
  | .cSrai _ _ => 0x21
  | .li _ _ => 0x22
  | .cLi _ _ => 0x23
  | .lui _ _ => 0x24
  | .cLui _ _ => 0x25
  | .load _ _ _ => 0x26
  | .cLoad _ _ _ => 0x27
  | .store _ _ _ => 0x28
  | .cStore _ _ _ => 0x29
  | .bez _ _ => 0x2a
  | .bnz _ _ => 0x2c
  | .beq _ _ _ => 0x2e
  | .bne _ _ _ => 0x30
  | .blt _ _ _ => 0x32
  | .bge _ _ _ => 0x34
  | .bltu _ _ _ => 0x36
  | .bgeu _ _ _ => 0x38
  | .cBez _ _ => 0x2b
  | .cBnz _ _ => 0x2d
  | .call _ => 0x3a
  | .cCall _ => 0x3b
  | .brk => 0x3c
  | .cBrk => 0x3d

end Sys2Proof
end

