-- ==== Sys2Proof/WellFormed.lean ====
section
/-! DEFINITION. Which instructions an encoding exists for: every operand at a value its field admits
(spec/30_encoding.md R57, R58, R64; spec/93_implementation_defined.md I34; log 19). -/

namespace Sys2Proof

/-- A primed selector reaches registers 0 to 7 only (R57). -/
def primed (r : Reg) : Bool := decide (r.val < 8)

/-- The value is the sign extension of its low 16 bits (R58: formats I and S). -/
def fitsSigned16 (imm : Word) : Bool := (imm.extractLsb' 0 16).signExtend 32 == imm

/-- The value is the sign extension of its low 7 bits (R58: format CI). -/
def fitsSigned7 (imm : Word) : Bool := (imm.extractLsb' 0 7).signExtend 32 == imm

/-- The value is the sign extension of its low 4 bits (R58: formats CL and CS). -/
def fitsSigned4 (imm : Word) : Bool := (imm.extractLsb' 0 4).signExtend 32 == imm

/-- The value lies in bits 31..16 (R58: format U). -/
def fitsUpper16 (imm : Word) : Bool := imm.extractLsb' 0 16 == 0

/-- The value lies in bits 22..16 (R58: format CU). -/
def fitsUpper7 (imm : Word) : Bool := imm.extractLsb' 0 16 == 0 && imm.extractLsb' 23 9 == 0

/-- A syscall number of 16 bits (R58: CALL). -/
def fitsNumber16 (n : Word) : Bool := n.extractLsb' 16 16 == 0

/-- A syscall number of 7 bits (R58: C.CALL). -/
def fitsNumber7 (n : Word) : Bool := n.extractLsb' 7 25 == 0

/-- Every operand fits the field its format gives it (R54, R55, R58). -/
def Instr.wellFormed : Instr → Bool
  | .cMv _ _ => true
  | .add _ _ _ => true
  | .sub _ _ _ => true
  | .and _ _ _ => true
  | .or _ _ _ => true
  | .xor _ _ _ => true
  | .sll _ _ _ => true
  | .srl _ _ _ => true
  | .sra _ _ _ => true
  | .addi _ _ imm => fitsSigned16 imm
  | .subi _ _ imm => fitsSigned16 imm
  | .andi _ _ imm => fitsSigned16 imm
  | .ori _ _ imm => fitsSigned16 imm
  | .xori _ _ imm => fitsSigned16 imm
  | .slli _ _ imm => fitsSigned16 imm
  | .srli _ _ imm => fitsSigned16 imm
  | .srai _ _ imm => fitsSigned16 imm
  | .cAdd _ _ => true
  | .cSub _ _ => true
  | .cAnd _ _ => true
  | .cOr _ _ => true
  | .cXor _ _ => true
  | .cSll _ _ => true
  | .cSrl _ _ => true
  | .cSra _ _ => true
  | .cAddi rd imm => primed rd && fitsSigned7 imm
  | .cSubi rd imm => primed rd && fitsSigned7 imm
  | .cAndi rd imm => primed rd && fitsSigned7 imm
  | .cOri rd imm => primed rd && fitsSigned7 imm
  | .cXori rd imm => primed rd && fitsSigned7 imm
  | .cSlli rd imm => primed rd && fitsSigned7 imm
  | .cSrli rd imm => primed rd && fitsSigned7 imm
  | .cSrai rd imm => primed rd && fitsSigned7 imm
  | .li _ imm => fitsSigned16 imm
  | .cLi rd imm => primed rd && fitsSigned7 imm
  | .lui _ imm => fitsUpper16 imm
  | .cLui rd imm => primed rd && fitsUpper7 imm
  | .load _ _ imm => fitsSigned16 imm
  | .cLoad rd rs1 imm => primed rd && primed rs1 && fitsSigned4 imm
  | .store _ _ imm => fitsSigned16 imm
  | .cStore rs1 rs2 imm => primed rs1 && primed rs2 && fitsSigned4 imm
  | .bez _ imm => fitsSigned16 imm
  | .bnz _ imm => fitsSigned16 imm
  | .beq _ _ imm => fitsSigned16 imm
  | .bne _ _ imm => fitsSigned16 imm
  | .blt _ _ imm => fitsSigned16 imm
  | .bge _ _ imm => fitsSigned16 imm
  | .bltu _ _ imm => fitsSigned16 imm
  | .bgeu _ _ imm => fitsSigned16 imm
  | .cBez rs1 imm => primed rs1 && fitsSigned4 imm
  | .cBnz rs1 imm => primed rs1 && fitsSigned4 imm
  | .call n => fitsNumber16 n
  | .cCall n => fitsNumber7 n
  | .brk => true
  | .cBrk => true

end Sys2Proof
end

