-- ==== Sys2Proof/Decode.lean ====
section
/-! DEFINITION. The instruction decoder and the encoder, both written from spec/30_encoding.md (R51 to R63). -/

namespace Sys2Proof

/-- The two reasons the decoder refuses bytes. -/
inductive DecodeError where
  /-- The opcode is one of the nine unassigned values (R60): the machine raises DecodeFault. -/
  | unassignedOpcode (opcode : BitVec 6)
  /-- Fewer bytes than the instruction's length: never seen by the machine, which fetches the full length (R52). -/
  | truncated
  deriving DecidableEq, Repr

/-- The 5-bit selector at bits `lo+4 .. lo` names that register (R56). -/
def reg5 {k : Nat} (b : BitVec k) (lo : Nat) : Reg := (b.extractLsb' lo 5).toFin

/-- The primed 3-bit selector at bits `lo+2 .. lo` names register 0 to 7, the identity (R57). -/
def reg3 (h : Half) (lo : Nat) : Reg := ((h.extractLsb' lo 3).setWidth 5).toFin

/-- `sext_16(inst[31:16])` (R58: formats I and S). -/
def imm16 (w : Word) : Word := (w.extractLsb' 16 16).signExtend 32

/-- `inst[31:16]` in the upper half of the operand, zeros below (R58: format U). -/
def upper16 (w : Word) : Word := w.extractLsb' 16 16 ++ 0#16

/-- `zext_16(inst[31:16])` (R58: CALL). -/
def number16 (w : Word) : Word := (w.extractLsb' 16 16).setWidth 32

/-- `sext_7(inst[15:9])` (R58: format CI). -/
def imm7 (h : Half) : Word := (h.extractLsb' 9 7).signExtend 32

/-- `sext_4(inst[15:12])` (R58: formats CL and CS). -/
def imm4 (h : Half) : Word := (h.extractLsb' 12 4).signExtend 32

/-- `zext_7(inst[15:9]) << 16` (R58: format CU). -/
def upper7 (h : Half) : Word := (h.extractLsb' 9 7).setWidth 16 ++ 0#16

/-- `zext_7(inst[15:9])` (R58: C.CALL). -/
def number7 (h : Half) : Word := (h.extractLsb' 9 7).setWidth 32

/-- A standard instruction: the even rows of the opcode map (R59) with the fields of R54. Bits no field uses are ignored
(R61). -/
def decodeWord (w : Word) : Option Instr :=
  match (w.extractLsb' 0 6).toNat with
  | 0x02 => some (.add (reg5 w 6) (reg5 w 11) (reg5 w 16))
  | 0x04 => some (.sub (reg5 w 6) (reg5 w 11) (reg5 w 16))
  | 0x06 => some (.and (reg5 w 6) (reg5 w 11) (reg5 w 16))
  | 0x08 => some (.or (reg5 w 6) (reg5 w 11) (reg5 w 16))
  | 0x0a => some (.xor (reg5 w 6) (reg5 w 11) (reg5 w 16))
  | 0x0c => some (.sll (reg5 w 6) (reg5 w 11) (reg5 w 16))
  | 0x0e => some (.srl (reg5 w 6) (reg5 w 11) (reg5 w 16))
  | 0x10 => some (.sra (reg5 w 6) (reg5 w 11) (reg5 w 16))
  | 0x12 => some (.addi (reg5 w 6) (reg5 w 11) (imm16 w))
  | 0x14 => some (.subi (reg5 w 6) (reg5 w 11) (imm16 w))
  | 0x16 => some (.andi (reg5 w 6) (reg5 w 11) (imm16 w))
  | 0x18 => some (.ori (reg5 w 6) (reg5 w 11) (imm16 w))
  | 0x1a => some (.xori (reg5 w 6) (reg5 w 11) (imm16 w))
  | 0x1c => some (.slli (reg5 w 6) (reg5 w 11) (imm16 w))
  | 0x1e => some (.srli (reg5 w 6) (reg5 w 11) (imm16 w))
  | 0x20 => some (.srai (reg5 w 6) (reg5 w 11) (imm16 w))
  | 0x22 => some (.li (reg5 w 6) (imm16 w))
  | 0x24 => some (.lui (reg5 w 6) (upper16 w))
  | 0x26 => some (.load (reg5 w 6) (reg5 w 11) (imm16 w))
  | 0x28 => some (.store (reg5 w 6) (reg5 w 11) (imm16 w))
  | 0x2a => some (.bez (reg5 w 6) (imm16 w))
  | 0x2c => some (.bnz (reg5 w 6) (imm16 w))
  | 0x2e => some (.beq (reg5 w 6) (reg5 w 11) (imm16 w))
  | 0x30 => some (.bne (reg5 w 6) (reg5 w 11) (imm16 w))
  | 0x32 => some (.blt (reg5 w 6) (reg5 w 11) (imm16 w))
  | 0x34 => some (.bge (reg5 w 6) (reg5 w 11) (imm16 w))
  | 0x36 => some (.bltu (reg5 w 6) (reg5 w 11) (imm16 w))
  | 0x38 => some (.bgeu (reg5 w 6) (reg5 w 11) (imm16 w))
  | 0x3a => some (.call (number16 w))
  | 0x3c => some .brk
  | _ => none

/-- A compressed instruction: the odd rows of the opcode map (R59) with the fields of R55. Bits no field uses are ignored
(R61). -/
def decodeHalf (h : Half) : Option Instr :=
  match (h.extractLsb' 0 6).toNat with
  | 0x01 => some (.cMv (reg5 h 6) (reg5 h 11))
  | 0x03 => some (.cAdd (reg5 h 6) (reg5 h 11))
  | 0x05 => some (.cSub (reg5 h 6) (reg5 h 11))
  | 0x07 => some (.cAnd (reg5 h 6) (reg5 h 11))
  | 0x09 => some (.cOr (reg5 h 6) (reg5 h 11))
  | 0x0b => some (.cXor (reg5 h 6) (reg5 h 11))
  | 0x0d => some (.cSll (reg5 h 6) (reg5 h 11))
  | 0x0f => some (.cSrl (reg5 h 6) (reg5 h 11))
  | 0x11 => some (.cSra (reg5 h 6) (reg5 h 11))
  | 0x13 => some (.cAddi (reg3 h 6) (imm7 h))
  | 0x15 => some (.cSubi (reg3 h 6) (imm7 h))
  | 0x17 => some (.cAndi (reg3 h 6) (imm7 h))
  | 0x19 => some (.cOri (reg3 h 6) (imm7 h))
  | 0x1b => some (.cXori (reg3 h 6) (imm7 h))
  | 0x1d => some (.cSlli (reg3 h 6) (imm7 h))
  | 0x1f => some (.cSrli (reg3 h 6) (imm7 h))
  | 0x21 => some (.cSrai (reg3 h 6) (imm7 h))
  | 0x23 => some (.cLi (reg3 h 6) (imm7 h))
  | 0x25 => some (.cLui (reg3 h 6) (upper7 h))
  | 0x27 => some (.cLoad (reg3 h 6) (reg3 h 9) (imm4 h))
  | 0x29 => some (.cStore (reg3 h 6) (reg3 h 9) (imm4 h))
  | 0x2b => some (.cBez (reg3 h 6) (imm4 h))
  | 0x2d => some (.cBnz (reg3 h 6) (imm4 h))
  | 0x3b => some (.cCall (number7 h))
  | 0x3d => some .cBrk
  | _ => none

/-- The instruction decoder (R63, R193): pure and total; an opcode with no assigned meaning is an error (R60). -/
def decode (bits : InstBits) : Except DecodeError Instr :=
  match (match bits with
    | .half h => decodeHalf h
    | .word w => decodeWord w) with
  | some i => .ok i
  | none => .error (.unassignedOpcode bits.opcode)

/-- Two bytes in memory order as a half-word, little-endian (R31). -/
def halfOf (b0 b1 : Byte) : Half := b1 ++ b0

/-- The decoder on bytes in memory order: the length from the parity of the opcode (R52), the instruction, and the bytes
after it. -/
def decodeBytes : List Byte → Except DecodeError (Instr × List Byte)
  | b0 :: b1 :: rest =>
    if b0.getLsbD 0 then
      (decode (.half (halfOf b0 b1))).map (·, rest)
    else
      match rest with
      | b2 :: b3 :: rest => (decode (.word (halfOf b2 b3 ++ halfOf b0 b1))).map (·, rest)
      | _ => .error .truncated
  | _ => .error .truncated

/-! The encoder: the layouts of R54 and R55 with zero in every bit no field uses (R61). -/

/-- The 5-bit selector of a register. -/
def sel5 (r : Reg) : BitVec 5 := .ofFin r

/-- The 3-bit primed selector of a register 0 to 7. -/
def sel3 (r : Reg) : BitVec 3 := (sel5 r).setWidth 3

/-- Format R (R54). -/
def layoutR (op : BitVec 6) (rd rs1 rs2 : Reg) : Word := 0#11 ++ sel5 rs2 ++ sel5 rs1 ++ sel5 rd ++ op

/-- Format I (R54). -/
def layoutI (op : BitVec 6) (rd rs1 : Reg) (imm : Word) : Word := imm.extractLsb' 0 16 ++ sel5 rs1 ++ sel5 rd ++ op

/-- Format S (R54). -/
def layoutS (op : BitVec 6) (rs1 rs2 : Reg) (imm : Word) : Word := imm.extractLsb' 0 16 ++ sel5 rs2 ++ sel5 rs1 ++ op

/-- Format U (R54): the field is the upper half of the operand. -/
def layoutU (op : BitVec 6) (rd : Reg) (imm : Word) : Word := imm.extractLsb' 16 16 ++ 0#5 ++ sel5 rd ++ op

/-- Format SYS (R54). -/
def layoutSys (op : BitVec 6) (n : Word) : Word := n.extractLsb' 0 16 ++ 0#10 ++ op

/-- Format CR (R55). -/
def layoutCR (op : BitVec 6) (rd rs2 : Reg) : Half := sel5 rs2 ++ sel5 rd ++ op

/-- Format CI (R55). -/
def layoutCI (op : BitVec 6) (rd : Reg) (imm : Word) : Half := imm.extractLsb' 0 7 ++ sel3 rd ++ op

/-- Format CU (R55): the field is bits 22..16 of the operand. -/
def layoutCU (op : BitVec 6) (rd : Reg) (imm : Word) : Half := imm.extractLsb' 16 7 ++ sel3 rd ++ op

/-- Format CL (R55). -/
def layoutCL (op : BitVec 6) (rd rs1 : Reg) (imm : Word) : Half := imm.extractLsb' 0 4 ++ sel3 rs1 ++ sel3 rd ++ op

/-- Format CS (R55). -/
def layoutCS (op : BitVec 6) (rs1 rs2 : Reg) (imm : Word) : Half := imm.extractLsb' 0 4 ++ sel3 rs2 ++ sel3 rs1 ++ op

/-- Format CSYS (R55). -/
def layoutCSys (op : BitVec 6) (n : Word) : Half := n.extractLsb' 0 7 ++ 0#3 ++ op

/-- The bits of an instruction (R54, R55, R59), zero in every don't-care bit (R61). -/
def encode : Instr → InstBits
  | .cMv rd rs2 => .half (layoutCR 0x01 rd rs2)
  | .add rd rs1 rs2 => .word (layoutR 0x02 rd rs1 rs2)
  | .sub rd rs1 rs2 => .word (layoutR 0x04 rd rs1 rs2)
  | .and rd rs1 rs2 => .word (layoutR 0x06 rd rs1 rs2)
  | .or rd rs1 rs2 => .word (layoutR 0x08 rd rs1 rs2)
  | .xor rd rs1 rs2 => .word (layoutR 0x0a rd rs1 rs2)
  | .sll rd rs1 rs2 => .word (layoutR 0x0c rd rs1 rs2)
  | .srl rd rs1 rs2 => .word (layoutR 0x0e rd rs1 rs2)
  | .sra rd rs1 rs2 => .word (layoutR 0x10 rd rs1 rs2)
  | .addi rd rs1 imm => .word (layoutI 0x12 rd rs1 imm)
  | .subi rd rs1 imm => .word (layoutI 0x14 rd rs1 imm)
  | .andi rd rs1 imm => .word (layoutI 0x16 rd rs1 imm)
  | .ori rd rs1 imm => .word (layoutI 0x18 rd rs1 imm)
  | .xori rd rs1 imm => .word (layoutI 0x1a rd rs1 imm)
  | .slli rd rs1 imm => .word (layoutI 0x1c rd rs1 imm)
  | .srli rd rs1 imm => .word (layoutI 0x1e rd rs1 imm)
  | .srai rd rs1 imm => .word (layoutI 0x20 rd rs1 imm)
  | .cAdd rd rs2 => .half (layoutCR 0x03 rd rs2)
  | .cSub rd rs2 => .half (layoutCR 0x05 rd rs2)
  | .cAnd rd rs2 => .half (layoutCR 0x07 rd rs2)
  | .cOr rd rs2 => .half (layoutCR 0x09 rd rs2)
  | .cXor rd rs2 => .half (layoutCR 0x0b rd rs2)
  | .cSll rd rs2 => .half (layoutCR 0x0d rd rs2)
  | .cSrl rd rs2 => .half (layoutCR 0x0f rd rs2)
  | .cSra rd rs2 => .half (layoutCR 0x11 rd rs2)
  | .cAddi rd imm => .half (layoutCI 0x13 rd imm)
  | .cSubi rd imm => .half (layoutCI 0x15 rd imm)
  | .cAndi rd imm => .half (layoutCI 0x17 rd imm)
  | .cOri rd imm => .half (layoutCI 0x19 rd imm)
  | .cXori rd imm => .half (layoutCI 0x1b rd imm)
  | .cSlli rd imm => .half (layoutCI 0x1d rd imm)
  | .cSrli rd imm => .half (layoutCI 0x1f rd imm)
  | .cSrai rd imm => .half (layoutCI 0x21 rd imm)
  | .li rd imm => .word (layoutI 0x22 rd 0 imm)
  | .cLi rd imm => .half (layoutCI 0x23 rd imm)
  | .lui rd imm => .word (layoutU 0x24 rd imm)
  | .cLui rd imm => .half (layoutCU 0x25 rd imm)
  | .load rd rs1 imm => .word (layoutI 0x26 rd rs1 imm)
  | .cLoad rd rs1 imm => .half (layoutCL 0x27 rd rs1 imm)
  | .store rs1 rs2 imm => .word (layoutS 0x28 rs1 rs2 imm)
  | .cStore rs1 rs2 imm => .half (layoutCS 0x29 rs1 rs2 imm)
  | .bez rs1 imm => .word (layoutS 0x2a rs1 0 imm)
  | .bnz rs1 imm => .word (layoutS 0x2c rs1 0 imm)
  | .beq rs1 rs2 imm => .word (layoutS 0x2e rs1 rs2 imm)
  | .bne rs1 rs2 imm => .word (layoutS 0x30 rs1 rs2 imm)
  | .blt rs1 rs2 imm => .word (layoutS 0x32 rs1 rs2 imm)
  | .bge rs1 rs2 imm => .word (layoutS 0x34 rs1 rs2 imm)
  | .bltu rs1 rs2 imm => .word (layoutS 0x36 rs1 rs2 imm)
  | .bgeu rs1 rs2 imm => .word (layoutS 0x38 rs1 rs2 imm)
  | .cBez rs1 imm => .half (layoutCS 0x2b rs1 0 imm)
  | .cBnz rs1 imm => .half (layoutCS 0x2d rs1 0 imm)
  | .call n => .word (layoutSys 0x3a n)
  | .cCall n => .half (layoutCSys 0x3b n)
  | .brk => .word (layoutSys 0x3c 0)
  | .cBrk => .half (layoutCSys 0x3d 0)

/-- The bytes of an instruction in memory order: little-endian, the first half-word first (R31, R52). -/
def InstBits.bytes : InstBits → List Byte
  | .half h => [h.extractLsb' 0 8, h.extractLsb' 8 8]
  | .word w => [w.extractLsb' 0 8, w.extractLsb' 8 8, w.extractLsb' 16 8, w.extractLsb' 24 8]

/-- The four bytes that hold the instruction whose bits are `w`, least significant first: bits from `nbits` on are 0. -/
def tableBytes (nbits w : Nat) : List Byte :=
  (InstBits.word (BitVec.ofNat 32 (w % 2 ^ nbits))).bytes

/-- The instruction the decoder reads from the table word `w` of `nbits` bits, numbered as spec/opcode_table.json numbers
them. -/
def decodeTableWord (nbits w : Nat) : Option Instr :=
  match decodeBytes (tableBytes nbits w) with
  | .ok (i, _) => some i
  | .error _ => none

end Sys2Proof
end

