-- ==== Sys2Proof/Machine/Alu.lean ====
section
/-! DEFINITION. The results of the `alu`: the five operations of spec/40_arith_logic.md R80 and the three shifts of
spec/41_shifts.md R111 (spec/50_core_blocks.md R195). The comparisons are in Machine/Flags.lean. -/

namespace Sys2Proof.Machine

/-- ADD: `(a + b) mod 2^32` (R80). -/
def aluAdd (a b : Word) : Word := a + b

/-- SUB: `(a - b) mod 2^32` (R80). -/
def aluSub (a b : Word) : Word := a - b

/-- AND (R80). -/
def aluAnd (a b : Word) : Word := a &&& b

/-- OR (R80). -/
def aluOr (a b : Word) : Word := a ||| b

/-- XOR (R80). -/
def aluXor (a b : Word) : Word := a ^^^ b

/-- The shift amount: the low 5 bits of the second operand (R110). -/
def shiftAmount (b : Word) : Nat := (b.extractLsb' 0 5).toNat

/-- SLL: zeros enter at bit 0 (R111). -/
def aluSll (a b : Word) : Word := a <<< shiftAmount b

/-- SRL: zeros enter at bit 31 (R111). -/
def aluSrl (a b : Word) : Word := a >>> shiftAmount b

/-- SRA: copies of bit 31 enter at bit 31 (R111). -/
def aluSra (a b : Word) : Word := a.sshiftRight (shiftAmount b)

end Sys2Proof.Machine
end

