-- ==== Sys2Proof/Machine/Flags.lean ====
section
/-! DEFINITION. The core has no flags and no condition codes (spec/10_state.md R19). What stands in their place is the one
bit `taken`: the six comparison predicates of the `alu` on register values (spec/50_core_blocks.md R195). -/

namespace Sys2Proof.Machine

/-- `= 0` (BEZ, C.BEZ; R142, R150). -/
def takenZero (a : Word) : Bool := a == 0

/-- `!= 0` (BNZ, C.BNZ; R143, R151). -/
def takenNonzero (a : Word) : Bool := a != 0

/-- `=` on all 32 bits (BEQ; R144). -/
def takenEq (a b : Word) : Bool := a == b

/-- `!=` (BNE; R145). -/
def takenNe (a b : Word) : Bool := a != b

/-- Signed `<` (BLT; R146). -/
def takenLt (a b : Word) : Bool := decide (a.toInt < b.toInt)

/-- Signed `>=` (BGE; R147). -/
def takenGe (a b : Word) : Bool := decide (b.toInt ≤ a.toInt)

/-- Unsigned `<` (BLT.U; R148). -/
def takenLtU (a b : Word) : Bool := decide (a.toNat < b.toNat)

/-- Unsigned `>=` (BGE.U; R149). -/
def takenGeU (a b : Word) : Bool := decide (b.toNat ≤ a.toNat)

end Sys2Proof.Machine
end

