-- ==== Sys2Proof/Config.lean ====
section
/-! DEFINITION. What an implementation fixes (spec/00_scope.md R4) and the free values the spec leaves to the host
(spec/45_system.md R172). -/

namespace Sys2Proof

/-- The configuration input `BREAK_MODE`: what BREAK and C.BREAK do (R4, R177). -/
inductive BreakMode where
  | disabled
  | notify
  | halt
  deriving DecidableEq, Repr

/-- The static configuration of the core (R4, R20): constant for the life of the core, neither readable nor writable by a
program. The OPEN parameters are data, so that a statement about every state is one about every configuration (log 1). -/
structure Config where
  /-- `MEM_SIZE`: valid byte addresses are `0 .. memSize - 1` (R30). -/
  memSize : Nat
  /-- `ALIGN_ENFORCE`: when true a misaligned fetch or data access is a Memory fault (R38). -/
  alignEnforce : Bool
  /-- `BREAK_MODE` (R177). -/
  breakMode : BreakMode
  deriving DecidableEq, Repr

/-- The range R4 gives `MEM_SIZE`: `1 <= MEM_SIZE <= 2^32`. -/
def Config.wf (c : Config) : Bool :=
  decide (1 ≤ c.memSize) && decide (c.memSize ≤ 2 ^ 32)

/-- DESIGN CHOICE (log 1): the values R4 recommends or gives as defaults. -/
def Config.default : Config :=
  { memSize := 2 ^ 32, alignEnforce := false, breakMode := .disabled }

/-- FREE VALUE (log 6): the 32-bit result the host gives to its `k`-th call, any value (R172, D21). -/
opaque Config.hostResult : Nat → Word

/-- FREE VALUE (log 6): the byte that the host's answer to its `k`-th call, a sys_read, puts at offset `i` of the buffer,
any value (R172, D21). -/
opaque Config.hostByte : Nat → Nat → Byte

end Sys2Proof
end

