-- ==== Sys2Proof/Machine/Memory.lean ====
section
/-! DEFINITION. Memory as data: sparse bytes in one canonical form, with the byte, half-word, word and block reads and writes
the machine is built from (spec/20_memory.md R30, R31). Validity of an access is checked in Machine/Ops.lean, not here. -/

namespace Sys2Proof.Machine

/-- The bytes of Memory that differ from `unlisted`, by address, addresses strictly rising (`Memory.wf`). -/
abbrev Memory := List Host.Cell

/-- DESIGN CHOICE (log 4): what an address no entry lists reads as. R26 lets `MEM_INIT` be any value. -/
def unlisted : Byte := 0

/-- Canonical from address `lo` on: addresses rise strictly from `lo`, and no entry holds `unlisted`. -/
def Memory.wfFrom (lo : Nat) : Memory → Bool
  | [] => true
  | (a, b) :: rest => decide (lo ≤ a) && b != unlisted && Memory.wfFrom (a + 1) rest

/-- The canonical form: with it equal contents are equal lists. -/
def Memory.wf (m : Memory) : Bool := Memory.wfFrom 0 m

/-- Every listed address is below `n`. -/
def Memory.below (n : Nat) (m : Memory) : Bool := m.all fun c => decide (c.1 < n)

/-- The byte at an address. -/
def Memory.read : Memory → Nat → Byte
  | [], _ => unlisted
  | (k, v) :: rest, a => if a = k then v else Memory.read rest a

/-- The memory with the byte at an address replaced, kept canonical. -/
def Memory.write : Memory → Nat → Byte → Memory
  | [], a, b => if b = unlisted then [] else [(a, b)]
  | (k, v) :: rest, a, b =>
    if a < k then
      if b = unlisted then (k, v) :: rest else (a, b) :: (k, v) :: rest
    else if a = k then
      if b = unlisted then rest else (a, b) :: rest
    else (k, v) :: Memory.write rest a b

/-- The half-word at `a .. a+1`, little-endian (R31, R34). -/
def Memory.readHalf (m : Memory) (a : Nat) : Half := m.read (a + 1) ++ m.read a

/-- The word at `a .. a+3`, little-endian (R31, R34). -/
def Memory.readWord (m : Memory) (a : Nat) : Word :=
  m.read (a + 3) ++ m.read (a + 2) ++ m.read (a + 1) ++ m.read a

/-- The `n` bytes from `a` on. -/
def Memory.readBytes (m : Memory) (a : Nat) : Nat → List Byte
  | 0 => []
  | n + 1 => m.read a :: m.readBytes (a + 1) n

/-- The bytes of the list written from `a` on. -/
def Memory.writeBytes (m : Memory) (a : Nat) : List Byte → Memory
  | [] => m
  | b :: rest => Memory.writeBytes (m.write a b) (a + 1) rest

/-- The bytes of a word in memory order: byte `i` holds bits `8i+7 .. 8i` (R31). -/
def wordBytes (v : Word) : List Byte :=
  [v.extractLsb' 0 8, v.extractLsb' 8 8, v.extractLsb' 16 8, v.extractLsb' 24 8]

/-- The word written at `a .. a+3`, little-endian (R31, R35). -/
def Memory.writeWord (m : Memory) (a : Nat) (v : Word) : Memory := m.writeBytes a (wordBytes v)

end Sys2Proof.Machine
end

