-- ==== Sys2Proof/Machine/State.lean ====
section
/-! DEFINITION. The whole state of the machine as plain data (spec/10_state.md R24: register file, Memory, status; R25: the
breakpoint notification stream), the trap state's values, and the outcomes of a step that are no next state. -/

namespace Sys2Proof.Machine

/-- What an access was for (spec/60_exceptions.md R220). -/
inductive Access where
  | fetch | load | store | syscall
  deriving DecidableEq, Repr

/-- Why an access is a Memory fault (R220). -/
inductive MemoryCause where
  | outOfRange | misaligned
  deriving DecidableEq, Repr

/-- The kind and the payload of `Faulted(kind, info)` (R220 to R224). -/
inductive FaultReport where
  /-- DecodeFault: the instruction's address, its opcode, its 16 or 32 bits (R221). -/
  | decode (addr : Word) (opcode : BitVec 6) (inst : InstBits)
  /-- RegisterFault: the instruction's address and the bad index (R222); nothing raises it (log 18). -/
  | register (addr : Word) (index : Nat)
  /-- MemoryFault: the address of the access, what it was for, and why it faults (R223). -/
  | memory (addr : Word) (access : Access) (cause : MemoryCause)
  /-- SyscallFault: the address of the CALL or C.CALL and the syscall number (R224). -/
  | syscall (addr : Word) (n : Word)
  deriving DecidableEq, Repr

/-- The trap state `status` (spec/10_state.md R21). Every value but `running` is terminal. -/
inductive Status where
  | running
  | exited (code : Word)
  | faulted (report : FaultReport)
  | breakHalted (addr : Word)
  deriving DecidableEq, Repr

/-- One request on the syscall port, `HostCall(n, a0, a1, a2, a3)`, with the bytes of Memory the host reads for it
(spec/45_system.md R172; log 7). -/
structure HostRequest where
  n : Word
  a0 : Word
  a1 : Word
  a2 : Word
  a3 : Word
  bytes : List Byte
  deriving DecidableEq, Repr

/-- The state of the machine. -/
structure State where
  /-- The 32 slots of the register file; slot 0 is the program counter (R10, R11, R16). -/
  regs : Vector Word 32
  /-- The trap state (R21). -/
  status : Status
  /-- Memory (R23, R30). -/
  mem : Memory
  /-- The breakpoint notification stream, oldest event first (R25; log 10). -/
  breaks : List Word
  /-- The requests put on the syscall port, oldest first: the model's own record (R191; log 7). -/
  hostCalls : List HostRequest
  /-- The static configuration inputs (R4, R20). -/
  cfg : Config
  deriving DecidableEq, Repr

/-- Why no step is made. -/
inductive Fault where
  /-- Raised by `step` in a terminal status: the core makes no step there (R200, D26; log 11). Safe: the model stops where
  the hardware does nothing. -/
  | halted (status : Status)
  deriving DecidableEq, Repr

/-- Why an instruction has no meaning. -/
inductive Refusal where
  /-- Raised by an arm of `exec` whose instruction is not modelled; no arm is. Safe: the model stops. -/
  | notModelled (mnemonic : String)
  deriving DecidableEq, Repr

/-- The machine right after reset (R26): the stack pointer, the status and the notification stream as R26 states them.
DESIGN CHOICE: the other registers hold 0 (logs 2 and 3), Memory lists nothing (log 4), the configuration is the default
one (log 1), no host call has been made (log 7). -/
def State.reset : State :=
  { regs := (Vector.replicate 32 0#32).set 1 0xfffffffc#32
    status := .running
    mem := []
    breaks := []
    hostCalls := []
    cfg := Config.default }

end Sys2Proof.Machine
end

