-- ==== Sys2Proof/Machine/Ops.lean ====
section
/-! DEFINITION. The named operations the meanings are made of: register reads and writes, the end of a step
(program_counter_mux and write-back), raising a fault, the memory accesses, the syscall and the breakpoint
(spec/10_state.md, spec/20_memory.md, spec/45_system.md, spec/50_core_blocks.md, spec/60_exceptions.md). -/

namespace Sys2Proof.Machine

/-- The answers a step can give. -/
abbrev Outcome := Host.Outcome State Fault Refusal

/-! ### register_file (R194) -/

/-- `x[r]`: reading slot 0 gives the address of the instruction itself (R12). -/
def State.reg (s : State) (r : Reg) : Word := s.regs[r]

/-- `pc`: the address of the instruction being executed (R12, R16). -/
def State.pc (s : State) : Word := s.reg 0

/-- `x[r] <- v` (R13, R194). -/
def State.setReg (s : State) (r : Reg) (v : Word) : State := { s with regs := s.regs.set r v }

/-! ### The other fields -/

/-- The state with another trap state. -/
def State.withStatus (s : State) (st : Status) : State := { s with status := st }

/-- The state with another Memory. -/
def State.withMem (s : State) (m : Memory) : State := { s with mem := m }

/-- The event `Break(addr)` appended to the notification stream (R25). -/
def State.notify (s : State) (addr : Word) : State := { s with breaks := s.breaks ++ [addr] }

/-- A request put on the syscall port (R172; log 7). -/
def State.request (s : State) (q : HostRequest) : State := { s with hostCalls := s.hostCalls ++ [q] }

/-! ### program_counter_mux and write-back -/

/-- program_counter_mux (R198): the value written to slot 0 wins, then a taken branch's `pc + imm`, else `pc + ilen`; the
sums wrap (R17). -/
def pcMux (pc ilen : Word) (jump taken : Option Word) : Word :=
  match jump, taken with
  | some v, _ => v
  | none, some imm => pc + imm
  | none, none => pc + ilen

/-- The writes that end a step which completes (R199): the destination if it is not slot 0, and the next program counter. -/
def State.commit (s : State) (ilen : Word) (dest : Option (Reg × Word)) (taken : Option Word) : State :=
  match dest with
  | some (d, v) =>
    if d = 0 then s.setReg 0 (pcMux s.pc ilen (some v) taken)
    else (s.setReg d v).setReg 0 (pcMux s.pc ilen none taken)
  | none => s.setReg 0 (pcMux s.pc ilen none taken)

/-- An instruction with destination `rd` completes with the result `v` (R13, R82, R199). -/
def State.retire (s : State) (ilen : Word) (rd : Reg) (v : Word) : State := s.commit ilen (some (rd, v)) none

/-- An instruction with no destination completes. -/
def State.advance (s : State) (ilen : Word) : State := s.commit ilen none none

/-- A branch completes (R140). -/
def State.branch (s : State) (ilen : Word) (taken : Bool) (imm : Word) : State :=
  s.commit ilen none (if taken then some imm else none)

/-! ### trap_controller: raising a fault (R226). There is no return from one (R230). -/

/-- `raise <Fault>(info)`: `status <- Faulted(kind, info)` and nothing else (R226). -/
def State.raise (s : State) (report : FaultReport) : State := s.withStatus (.faulted report)

/-- The fault of an instruction whose opcode is unassigned (R60, R193, R221). -/
def State.raiseDecode (s : State) (inst : InstBits) : State := s.raise (.decode s.pc inst.opcode inst)

/-- The 3-bit code `status` has on the status port (R220, R229). -/
def Status.code : Status → BitVec 3
  | .running => 0
  | .faulted (.decode _ _ _) => 1
  | .faulted (.register _ _) => 2
  | .faulted (.memory _ _ _) => 3
  | .faulted (.syscall _ _) => 4
  | .breakHalted _ => 5
  | .exited _ => 6

/-! ### Memory accesses -/

/-- The checks of `MemRead` and `MemWrite` on `n` bytes at `addr`, alignment before range; the sum is unbounded
(R32 to R35, R38). -/
def State.accessFault (s : State) (addr : Word) (n : Nat) (access : Access) : Option FaultReport :=
  if s.cfg.alignEnforce && addr.toNat % n != 0 then some (.memory addr access .misaligned)
  else if s.cfg.memSize < addr.toNat + n then some (.memory addr access .outOfRange)
  else none

/-- `MemRead(addr, 2)` (R34). -/
def State.readHalf (s : State) (addr : Word) (access : Access) : Except FaultReport Half :=
  match s.accessFault addr 2 access with
  | some f => .error f
  | none => .ok (s.mem.readHalf addr.toNat)

/-- `MemRead(addr, 4)` of kind load, by the load_store_controller (R34, R196). -/
def State.loadWord (s : State) (addr : Word) : Except FaultReport Word :=
  match s.accessFault addr 4 .load with
  | some f => .error f
  | none => .ok (s.mem.readWord addr.toNat)

/-- `MemWrite(addr, 4, v)`, by the load_store_controller (R35, R196). -/
def State.storeWord (s : State) (addr v : Word) : Except FaultReport State :=
  match s.accessFault addr 4 .store with
  | some f => .error f
  | none => .ok (s.withMem (s.mem.writeWord addr.toNat v))

/-! ### Syscalls -/

/-- The byte range a syscall names: `x[5]`, `x[6]` for sys_read and sys_write, `x[4]`, `x[5]` for sys_open and sys_create
(R173, R180). -/
def State.syscallBuffer (s : State) (n : Word) : Option (Word × Word) :=
  match n.toNat with
  | 1 => some (s.reg 5, s.reg 6)
  | 2 => some (s.reg 5, s.reg 6)
  | 3 => some (s.reg 4, s.reg 5)
  | 5 => some (s.reg 4, s.reg 5)
  | _ => none

/-- The range check of a syscall's buffer: none for length 0, none on alignment (R173). -/
def State.bufferFault (s : State) (n : Word) : Option FaultReport :=
  match s.syscallBuffer n with
  | some (pointer, length) =>
    if length ≠ 0 ∧ s.cfg.memSize < pointer.toNat + length.toNat then some (.memory pointer .syscall .outOfRange) else none
  | none => none

/-- The bytes of Memory the host reads: the buffer of sys_write, the path of sys_open and sys_create (R172). -/
def State.hostReads (s : State) (n : Word) : List Byte :=
  match n.toNat with
  | 2 => s.mem.readBytes (s.reg 5).toNat (s.reg 6).toNat
  | 3 => s.mem.readBytes (s.reg 4).toNat (s.reg 5).toNat
  | 5 => s.mem.readBytes (s.reg 4).toNat (s.reg 5).toNat
  | _ => []

/-- `HostCall(n, x[4], x[5], x[6], x[7])` as the core puts it on the syscall port (R172, R175). -/
def State.hostRequest (s : State) (n : Word) : HostRequest :=
  { n := n, a0 := s.reg 4, a1 := s.reg 5, a2 := s.reg 6, a3 := s.reg 7, bytes := s.hostReads n }

/-- The host's result: any value, but 0 for sys_write with length 0 (R172; logs 6 and 8). -/
def State.hostResult (s : State) (n : Word) : Word :=
  if n.toNat = 2 ∧ s.reg 6 = 0 then 0 else Config.hostResult s.hostCalls.length

/-- The first `count` bytes of the host's answer to its `k`-th call, a sys_read (log 6). -/
def hostBytes (k : Nat) (count : Nat) : List Byte := (List.range count).map (Config.hostByte k)

/-- Memory after the host's answer: sys_read may replace the bytes of its buffer, no other syscall writes (R172). -/
def State.hostMem (s : State) (n : Word) : Memory :=
  match n.toNat with
  | 1 => s.mem.writeBytes (s.reg 5).toNat (hostBytes s.hostCalls.length (s.reg 6).toNat)
  | _ => s.mem

/-- A syscall 1 to 5 that the host answers: `Mem <- Mem'; x[3] <- result; pc <- pc + ilen` (R175). -/
def State.completeCall (s : State) (ilen n : Word) : State :=
  ((s.withMem (s.hostMem n)).request (s.hostRequest n)).retire ilen 3 (s.hostResult n)

/-- The syscall with number `n`: the number is checked first, then sys_exit, then the buffer (R171, R174, R175, R227). -/
def State.syscall (s : State) (ilen n : Word) : State :=
  if 5 < n.toNat then s.raise (.syscall s.pc n)
  else if n = 0 then s.withStatus (.exited (s.reg 4))
  else
    match s.bufferFault n with
    | some f => s.raise f
    | none => s.completeCall ilen n

/-! ### Breakpoints -/

/-- What BREAK and C.BREAK do, by `BREAK_MODE` (R177). -/
def State.breakpoint (s : State) (ilen : Word) : State :=
  match s.cfg.breakMode with
  | .disabled => s.advance ilen
  | .notify => (s.notify s.pc).advance ilen
  | .halt => ((s.notify s.pc).advance ilen).withStatus (.breakHalted s.pc)

end Sys2Proof.Machine
end

