-- ==== Sys2Proof/Machine/Operands.lean ====
section
/-! DEFINITION. The operand forms (spec/40_arith_logic.md R81, spec/20_memory.md R37): where each format takes its operands
and puts its result. -/

namespace Sys2Proof.Machine

/-- Form R: `x[rd] <- f(x[rs1], x[rs2])`, 4 bytes (R81). -/
def State.opR (s : State) (f : Word → Word → Word) (rd rs1 rs2 : Reg) : State :=
  s.retire 4 rd (f (s.reg rs1) (s.reg rs2))

/-- Form I: `x[rd] <- f(x[rs1], imm)`, 4 bytes (R81). -/
def State.opI (s : State) (f : Word → Word → Word) (rd rs1 : Reg) (imm : Word) : State :=
  s.retire 4 rd (f (s.reg rs1) imm)

/-- Form CR: `x[rd] <- f(x[rd], x[rs2])`, 2 bytes (R81). -/
def State.opCR (s : State) (f : Word → Word → Word) (rd rs2 : Reg) : State :=
  s.retire 2 rd (f (s.reg rd) (s.reg rs2))

/-- Form CI: `x[rd'] <- f(x[rd'], imm)`, 2 bytes (R81). -/
def State.opCI (s : State) (f : Word → Word → Word) (rd : Reg) (imm : Word) : State :=
  s.retire 2 rd (f (s.reg rd) imm)

/-- The effective address `x[base] + imm`, wrapping mod 2^32, unscaled (R37, R160). -/
def State.ea (s : State) (base : Reg) (imm : Word) : Word := s.reg base + imm

/-- A load form: the word at the effective address goes to `rd` (R160, R161). -/
def State.opLoad (s : State) (ilen : Word) (rd base : Reg) (imm : Word) : State :=
  match s.loadWord (s.ea base imm) with
  | .error f => s.raise f
  | .ok v => s.retire ilen rd v

/-- A store form: the word of `src` goes to the effective address (R160, R163). -/
def State.opStore (s : State) (ilen : Word) (src base : Reg) (imm : Word) : State :=
  match s.storeWord (s.ea base imm) (s.reg src) with
  | .error f => s.raise f
  | .ok t => t.advance ilen

end Sys2Proof.Machine
end

