-- ==== Sys2Proof/Machine/ArithLogic.lean ====
section
/-! DEFINITION. Arithmetic and logical instructions and the register move (spec/40_arith_logic.md). -/

namespace Sys2Proof.Machine

/-- ADD `rd, rs1, rs2`: `x[rd] <- x[rs1] + x[rs2]` (R83). -/
def execAdd (rd rs1 rs2 : Reg) (s : State) : Outcome :=
  .next (s.opR aluAdd rd rs1 rs2)

/-- SUB `rd, rs1, rs2`: `x[rd] <- x[rs1] - x[rs2]` (R84). -/
def execSub (rd rs1 rs2 : Reg) (s : State) : Outcome :=
  .next (s.opR aluSub rd rs1 rs2)

/-- AND `rd, rs1, rs2`: `x[rd] <- x[rs1] & x[rs2]` (R85). -/
def execAnd (rd rs1 rs2 : Reg) (s : State) : Outcome :=
  .next (s.opR aluAnd rd rs1 rs2)

/-- OR `rd, rs1, rs2`: `x[rd] <- x[rs1] | x[rs2]` (R86). -/
def execOr (rd rs1 rs2 : Reg) (s : State) : Outcome :=
  .next (s.opR aluOr rd rs1 rs2)

/-- XOR `rd, rs1, rs2`: `x[rd] <- x[rs1] ^ x[rs2]` (R87). -/
def execXor (rd rs1 rs2 : Reg) (s : State) : Outcome :=
  .next (s.opR aluXor rd rs1 rs2)

/-- ADDI `rd, rs1, imm`: `x[rd] <- x[rs1] + imm` (R88). -/
def execAddi (rd rs1 : Reg) (imm : Word) (s : State) : Outcome :=
  .next (s.opI aluAdd rd rs1 imm)

/-- SUBI `rd, rs1, imm`: `x[rd] <- x[rs1] - imm` (R89). -/
def execSubi (rd rs1 : Reg) (imm : Word) (s : State) : Outcome :=
  .next (s.opI aluSub rd rs1 imm)

/-- ANDI `rd, rs1, imm`: `x[rd] <- x[rs1] & imm` (R90). -/
def execAndi (rd rs1 : Reg) (imm : Word) (s : State) : Outcome :=
  .next (s.opI aluAnd rd rs1 imm)

/-- ORI `rd, rs1, imm`: `x[rd] <- x[rs1] | imm` (R91). -/
def execOri (rd rs1 : Reg) (imm : Word) (s : State) : Outcome :=
  .next (s.opI aluOr rd rs1 imm)

/-- XORI `rd, rs1, imm`: `x[rd] <- x[rs1] ^ imm` (R92). -/
def execXori (rd rs1 : Reg) (imm : Word) (s : State) : Outcome :=
  .next (s.opI aluXor rd rs1 imm)

/-- C.ADD `rd, rs2`: `x[rd] <- x[rd] + x[rs2]` (R93). -/
def execCAdd (rd rs2 : Reg) (s : State) : Outcome :=
  .next (s.opCR aluAdd rd rs2)

/-- C.SUB `rd, rs2`: `x[rd] <- x[rd] - x[rs2]` (R94). -/
def execCSub (rd rs2 : Reg) (s : State) : Outcome :=
  .next (s.opCR aluSub rd rs2)

/-- C.AND `rd, rs2`: `x[rd] <- x[rd] & x[rs2]` (R95). -/
def execCAnd (rd rs2 : Reg) (s : State) : Outcome :=
  .next (s.opCR aluAnd rd rs2)

/-- C.OR `rd, rs2`: `x[rd] <- x[rd] | x[rs2]` (R96). -/
def execCOr (rd rs2 : Reg) (s : State) : Outcome :=
  .next (s.opCR aluOr rd rs2)

/-- C.XOR `rd, rs2`: `x[rd] <- x[rd] ^ x[rs2]` (R97). -/
def execCXor (rd rs2 : Reg) (s : State) : Outcome :=
  .next (s.opCR aluXor rd rs2)

/-- C.ADDI `rd', imm`: `x[rd'] <- x[rd'] + imm` (R98). -/
def execCAddi (rd : Reg) (imm : Word) (s : State) : Outcome :=
  .next (s.opCI aluAdd rd imm)

/-- C.SUBI `rd', imm`: `x[rd'] <- x[rd'] - imm` (R99). -/
def execCSubi (rd : Reg) (imm : Word) (s : State) : Outcome :=
  .next (s.opCI aluSub rd imm)

/-- C.ANDI `rd', imm`: `x[rd'] <- x[rd'] & imm` (R100). -/
def execCAndi (rd : Reg) (imm : Word) (s : State) : Outcome :=
  .next (s.opCI aluAnd rd imm)

/-- C.ORI `rd', imm`: `x[rd'] <- x[rd'] | imm` (R101). -/
def execCOri (rd : Reg) (imm : Word) (s : State) : Outcome :=
  .next (s.opCI aluOr rd imm)

/-- C.XORI `rd', imm`: `x[rd'] <- x[rd'] ^ imm` (R102). -/
def execCXori (rd : Reg) (imm : Word) (s : State) : Outcome :=
  .next (s.opCI aluXor rd imm)

/-- C.MV `rd, rs2`: `x[rd] <- x[rs2]`, the old value of `rd` is no operand (R103). -/
def execCMv (rd rs2 : Reg) (s : State) : Outcome :=
  .next (s.retire 2 rd (s.reg rs2))

end Sys2Proof.Machine
end

