-- ==== Sys2Proof/Machine/Branches.lean ====
section
/-! DEFINITION. Compare-and-branch instructions (spec/43_branches.md): the target is `pc + imm`, the fall-through `pc + ilen` (R140). -/

namespace Sys2Proof.Machine

/-- BEZ `rs1, imm`: taken if `x[rs1] = 0` (R142). -/
def execBez (rs1 : Reg) (imm : Word) (s : State) : Outcome :=
  .next (s.branch 4 (takenZero (s.reg rs1)) imm)

/-- BNZ `rs1, imm`: taken if `x[rs1] != 0` (R143). -/
def execBnz (rs1 : Reg) (imm : Word) (s : State) : Outcome :=
  .next (s.branch 4 (takenNonzero (s.reg rs1)) imm)

/-- BEQ `rs1, rs2, imm`: taken if `x[rs1] = x[rs2]` (R144). -/
def execBeq (rs1 rs2 : Reg) (imm : Word) (s : State) : Outcome :=
  .next (s.branch 4 (takenEq (s.reg rs1) (s.reg rs2)) imm)

/-- BNE `rs1, rs2, imm`: taken if `x[rs1] != x[rs2]` (R145). -/
def execBne (rs1 rs2 : Reg) (imm : Word) (s : State) : Outcome :=
  .next (s.branch 4 (takenNe (s.reg rs1) (s.reg rs2)) imm)

/-- BLT `rs1, rs2, imm`: taken if signed `x[rs1] < x[rs2]` (R146). -/
def execBlt (rs1 rs2 : Reg) (imm : Word) (s : State) : Outcome :=
  .next (s.branch 4 (takenLt (s.reg rs1) (s.reg rs2)) imm)

/-- BGE `rs1, rs2, imm`: taken if signed `x[rs1] >= x[rs2]` (R147). -/
def execBge (rs1 rs2 : Reg) (imm : Word) (s : State) : Outcome :=
  .next (s.branch 4 (takenGe (s.reg rs1) (s.reg rs2)) imm)

/-- BLT.U `rs1, rs2, imm`: taken if unsigned `x[rs1] < x[rs2]` (R148). -/
def execBltu (rs1 rs2 : Reg) (imm : Word) (s : State) : Outcome :=
  .next (s.branch 4 (takenLtU (s.reg rs1) (s.reg rs2)) imm)

/-- BGE.U `rs1, rs2, imm`: taken if unsigned `x[rs1] >= x[rs2]` (R149). -/
def execBgeu (rs1 rs2 : Reg) (imm : Word) (s : State) : Outcome :=
  .next (s.branch 4 (takenGeU (s.reg rs1) (s.reg rs2)) imm)

/-- C.BEZ `rs1, imm`: taken if `x[rs1'] = 0` (R150). -/
def execCBez (rs1 : Reg) (imm : Word) (s : State) : Outcome :=
  .next (s.branch 2 (takenZero (s.reg rs1)) imm)

/-- C.BNZ `rs1, imm`: taken if `x[rs1'] != 0` (R151). -/
def execCBnz (rs1 : Reg) (imm : Word) (s : State) : Outcome :=
  .next (s.branch 2 (takenNonzero (s.reg rs1)) imm)

end Sys2Proof.Machine
end

