-- ==== Sys2Proof/Machine/LoadImm.lean ====
section
/-! DEFINITION. Immediate-load instructions (spec/42_load_immediate.md). The decoder has put the immediate in place (R58). -/

namespace Sys2Proof.Machine

/-- LI `rd, imm`: `x[rd] <- imm` (R131). -/
def execLi (rd : Reg) (imm : Word) (s : State) : Outcome :=
  .next (s.retire 4 rd imm)

/-- C.LI `rd', imm`: `x[rd'] <- imm` (R132). -/
def execCLi (rd : Reg) (imm : Word) (s : State) : Outcome :=
  .next (s.retire 2 rd imm)

/-- LUI `rd, imm`: the operand is the immediate in bits 31..16, zeros below (R133). -/
def execLui (rd : Reg) (imm : Word) (s : State) : Outcome :=
  .next (s.retire 4 rd imm)

/-- C.LUI `rd', imm`: the operand is the immediate in bits 22..16, zeros elsewhere (R134). -/
def execCLui (rd : Reg) (imm : Word) (s : State) : Outcome :=
  .next (s.retire 2 rd imm)

end Sys2Proof.Machine
end

