-- ==== Sys2Proof/Machine/LoadStore.lean ====
section
/-! DEFINITION. Loads and stores (spec/44_load_store.md). -/

namespace Sys2Proof.Machine

/-- LOAD `rd, imm(rs1)`: `x[rd] <- MemRead(x[rs1] + imm, 4)` (R161). -/
def execLoad (rd rs1 : Reg) (imm : Word) (s : State) : Outcome :=
  .next (s.opLoad 4 rd rs1 imm)

/-- C.LOAD `rd', imm(rs1')`: `x[rd'] <- MemRead(x[rs1'] + imm, 4)` (R162). -/
def execCLoad (rd rs1 : Reg) (imm : Word) (s : State) : Outcome :=
  .next (s.opLoad 2 rd rs1 imm)

/-- STORE `rs1, imm(rs2)`: `MemWrite(x[rs2] + imm, 4, x[rs1])` (R163). -/
def execStore (rs1 rs2 : Reg) (imm : Word) (s : State) : Outcome :=
  .next (s.opStore 4 rs1 rs2 imm)

/-- C.STORE `rs1', imm(rs2')`: `MemWrite(x[rs2'] + imm, 4, x[rs1'])` (R164). -/
def execCStore (rs1 rs2 : Reg) (imm : Word) (s : State) : Outcome :=
  .next (s.opStore 2 rs1 rs2 imm)

end Sys2Proof.Machine
end

