-- ==== Sys2Proof/Machine/Shifts.lean ====
section
/-! DEFINITION. Shift instructions (spec/41_shifts.md). -/

namespace Sys2Proof.Machine

/-- SLL `rd, rs1, rs2`: `x[rd] <- x[rs1] << x[rs2][4:0]` (R112). -/
def execSll (rd rs1 rs2 : Reg) (s : State) : Outcome :=
  .next (s.opR aluSll rd rs1 rs2)

/-- SRL `rd, rs1, rs2`: `x[rd] <- x[rs1] >>u x[rs2][4:0]` (R113). -/
def execSrl (rd rs1 rs2 : Reg) (s : State) : Outcome :=
  .next (s.opR aluSrl rd rs1 rs2)

/-- SRA `rd, rs1, rs2`: `x[rd] <- x[rs1] >>s x[rs2][4:0]` (R114). -/
def execSra (rd rs1 rs2 : Reg) (s : State) : Outcome :=
  .next (s.opR aluSra rd rs1 rs2)

/-- SLLI `rd, rs1, imm`: `x[rd] <- x[rs1] << imm[4:0]` (R115). -/
def execSlli (rd rs1 : Reg) (imm : Word) (s : State) : Outcome :=
  .next (s.opI aluSll rd rs1 imm)

/-- SRLI `rd, rs1, imm`: `x[rd] <- x[rs1] >>u imm[4:0]` (R116). -/
def execSrli (rd rs1 : Reg) (imm : Word) (s : State) : Outcome :=
  .next (s.opI aluSrl rd rs1 imm)

/-- SRAI `rd, rs1, imm`: `x[rd] <- x[rs1] >>s imm[4:0]` (R117). -/
def execSrai (rd rs1 : Reg) (imm : Word) (s : State) : Outcome :=
  .next (s.opI aluSra rd rs1 imm)

/-- C.SLL `rd, rs2`: `x[rd] <- x[rd] << x[rs2][4:0]` (R118). -/
def execCSll (rd rs2 : Reg) (s : State) : Outcome :=
  .next (s.opCR aluSll rd rs2)

/-- C.SRL `rd, rs2`: `x[rd] <- x[rd] >>u x[rs2][4:0]` (R119). -/
def execCSrl (rd rs2 : Reg) (s : State) : Outcome :=
  .next (s.opCR aluSrl rd rs2)

/-- C.SRA `rd, rs2`: `x[rd] <- x[rd] >>s x[rs2][4:0]` (R120). -/
def execCSra (rd rs2 : Reg) (s : State) : Outcome :=
  .next (s.opCR aluSra rd rs2)

/-- C.SLLI `rd', imm`: `x[rd'] <- x[rd'] << imm[4:0]` (R121). -/
def execCSlli (rd : Reg) (imm : Word) (s : State) : Outcome :=
  .next (s.opCI aluSll rd imm)

/-- C.SRLI `rd', imm`: `x[rd'] <- x[rd'] >>u imm[4:0]` (R122). -/
def execCSrli (rd : Reg) (imm : Word) (s : State) : Outcome :=
  .next (s.opCI aluSrl rd imm)

/-- C.SRAI `rd', imm`: `x[rd'] <- x[rd'] >>s imm[4:0]` (R123). -/
def execCSrai (rd : Reg) (imm : Word) (s : State) : Outcome :=
  .next (s.opCI aluSra rd imm)

end Sys2Proof.Machine
end

