-- ==== Sys2Proof/Machine/System.lean ====
section
/-! DEFINITION. System calls and breakpoints (spec/45_system.md). -/

namespace Sys2Proof.Machine

/-- CALL `n`: the system call with number `n` (R175). -/
def execCall (n : Word) (s : State) : Outcome :=
  .next (s.syscall 4 n)

/-- C.CALL `n`: the system call with number `n` (R176). -/
def execCCall (n : Word) (s : State) : Outcome :=
  .next (s.syscall 2 n)

/-- BREAK: the breakpoint of R177 (R178). -/
def execBrk (s : State) : Outcome :=
  .next (s.breakpoint 4)

/-- C.BREAK: the breakpoint of R177 (R179). -/
def execCBrk (s : State) : Outcome :=
  .next (s.breakpoint 2)

end Sys2Proof.Machine
end

