-- ==== Sys2Proof/Machine/Dispatch.lean ====
section
/-! DEFINITION. execution_unit (spec/50_core_blocks.md R197): exactly one instruction rule per instruction. -/

namespace Sys2Proof.Machine

/-- The effect of one decoded instruction; it does not look at `status`, which gates `step` (R199, R200; log 12). -/
def exec (i : Instr) (s : State) : Host.Outcome State Fault Refusal :=
  match i with
  -- Register move
  | .cMv rd rs2 => Sys2Proof.Machine.execCMv rd rs2 s
  -- Arithmetic and logic, format R
  | .add rd rs1 rs2 => Sys2Proof.Machine.execAdd rd rs1 rs2 s
  | .sub rd rs1 rs2 => Sys2Proof.Machine.execSub rd rs1 rs2 s
  | .and rd rs1 rs2 => Sys2Proof.Machine.execAnd rd rs1 rs2 s
  | .or rd rs1 rs2 => Sys2Proof.Machine.execOr rd rs1 rs2 s
  | .xor rd rs1 rs2 => Sys2Proof.Machine.execXor rd rs1 rs2 s
  -- Shifts, format R
  | .sll rd rs1 rs2 => Sys2Proof.Machine.execSll rd rs1 rs2 s
  | .srl rd rs1 rs2 => Sys2Proof.Machine.execSrl rd rs1 rs2 s
  | .sra rd rs1 rs2 => Sys2Proof.Machine.execSra rd rs1 rs2 s
  -- Arithmetic and logic, format I
  | .addi rd rs1 imm => Sys2Proof.Machine.execAddi rd rs1 imm s
  | .subi rd rs1 imm => Sys2Proof.Machine.execSubi rd rs1 imm s
  | .andi rd rs1 imm => Sys2Proof.Machine.execAndi rd rs1 imm s
  | .ori rd rs1 imm => Sys2Proof.Machine.execOri rd rs1 imm s
  | .xori rd rs1 imm => Sys2Proof.Machine.execXori rd rs1 imm s
  -- Shifts, format I
  | .slli rd rs1 imm => Sys2Proof.Machine.execSlli rd rs1 imm s
  | .srli rd rs1 imm => Sys2Proof.Machine.execSrli rd rs1 imm s
  | .srai rd rs1 imm => Sys2Proof.Machine.execSrai rd rs1 imm s
  -- Arithmetic and logic, format CR
  | .cAdd rd rs2 => Sys2Proof.Machine.execCAdd rd rs2 s
  | .cSub rd rs2 => Sys2Proof.Machine.execCSub rd rs2 s
  | .cAnd rd rs2 => Sys2Proof.Machine.execCAnd rd rs2 s
  | .cOr rd rs2 => Sys2Proof.Machine.execCOr rd rs2 s
  | .cXor rd rs2 => Sys2Proof.Machine.execCXor rd rs2 s
  -- Shifts, format CR
  | .cSll rd rs2 => Sys2Proof.Machine.execCSll rd rs2 s
  | .cSrl rd rs2 => Sys2Proof.Machine.execCSrl rd rs2 s
  | .cSra rd rs2 => Sys2Proof.Machine.execCSra rd rs2 s
  -- Arithmetic and logic, format CI
  | .cAddi rd imm => Sys2Proof.Machine.execCAddi rd imm s
  | .cSubi rd imm => Sys2Proof.Machine.execCSubi rd imm s
  | .cAndi rd imm => Sys2Proof.Machine.execCAndi rd imm s
  | .cOri rd imm => Sys2Proof.Machine.execCOri rd imm s
  | .cXori rd imm => Sys2Proof.Machine.execCXori rd imm s
  -- Shifts, format CI
  | .cSlli rd imm => Sys2Proof.Machine.execCSlli rd imm s
  | .cSrli rd imm => Sys2Proof.Machine.execCSrli rd imm s
  | .cSrai rd imm => Sys2Proof.Machine.execCSrai rd imm s
  -- Immediate loads
  | .li rd imm => Sys2Proof.Machine.execLi rd imm s
  | .cLi rd imm => Sys2Proof.Machine.execCLi rd imm s
  | .lui rd imm => Sys2Proof.Machine.execLui rd imm s
  | .cLui rd imm => Sys2Proof.Machine.execCLui rd imm s
  -- Loads and stores
  | .load rd rs1 imm => Sys2Proof.Machine.execLoad rd rs1 imm s
  | .cLoad rd rs1 imm => Sys2Proof.Machine.execCLoad rd rs1 imm s
  | .store rs1 rs2 imm => Sys2Proof.Machine.execStore rs1 rs2 imm s
  | .cStore rs1 rs2 imm => Sys2Proof.Machine.execCStore rs1 rs2 imm s
  -- Branches
  | .bez rs1 imm => Sys2Proof.Machine.execBez rs1 imm s
  | .bnz rs1 imm => Sys2Proof.Machine.execBnz rs1 imm s
  | .beq rs1 rs2 imm => Sys2Proof.Machine.execBeq rs1 rs2 imm s
  | .bne rs1 rs2 imm => Sys2Proof.Machine.execBne rs1 rs2 imm s
  | .blt rs1 rs2 imm => Sys2Proof.Machine.execBlt rs1 rs2 imm s
  | .bge rs1 rs2 imm => Sys2Proof.Machine.execBge rs1 rs2 imm s
  | .bltu rs1 rs2 imm => Sys2Proof.Machine.execBltu rs1 rs2 imm s
  | .bgeu rs1 rs2 imm => Sys2Proof.Machine.execBgeu rs1 rs2 imm s
  | .cBez rs1 imm => Sys2Proof.Machine.execCBez rs1 imm s
  | .cBnz rs1 imm => Sys2Proof.Machine.execCBnz rs1 imm s
  -- System
  | .call n => Sys2Proof.Machine.execCall n s
  | .cCall n => Sys2Proof.Machine.execCCall n s
  | .brk => Sys2Proof.Machine.execBrk s
  | .cBrk => Sys2Proof.Machine.execCBrk s

end Sys2Proof.Machine
end

