-- ==== Sys2Proof/Machine/Fetch.lean ====
section
/-! DEFINITION. fetch_unit (spec/50_core_blocks.md R192, spec/30_encoding.md R52). -/

namespace Sys2Proof.Machine

/-- The instruction at `x[0]`: one half-word, and a second one when bit 0 of the first is 0; the second read does not wrap
(R192, R33). -/
def State.fetch (s : State) : Except FaultReport InstBits :=
  match s.readHalf s.pc .fetch with
  | .error f => .error f
  | .ok h0 =>
    if h0.getLsbD 0 then .ok (.half h0)
    else if s.cfg.memSize < s.pc.toNat + 4 then .error (.memory (s.pc + 2) .fetch .outOfRange)
    else
      match s.readHalf (s.pc + 2) .fetch with
      | .error f => .error f
      | .ok h1 => .ok (.word (h1 ++ h0))

end Sys2Proof.Machine
end

