-- ==== Sys2Proof/Machine/Step.lean ====
section
/-! DEFINITION. One step of the core (spec/50_core_blocks.md R199, R200) and the loader's view of the next instruction. -/

namespace Sys2Proof.Machine

/-- One step: fetch, decode, execute while `status` is `Running` (R199); no step in a terminal status (R200, D26; log 11). -/
def step (s : State) : Host.Outcome State Fault Refusal :=
  match s.status with
  | .running =>
    match s.fetch with
    | .error f => .next (s.raise f)
    | .ok inst =>
      match decode inst with
      | .error _ => .next (s.raiseDecode inst)
      | .ok i => exec i s
  | st => .fault (.halted st)

/-- The state with the table word `w` of `nbits` bits (zeros above, up to four bytes) stored where the next step fetches, so
that in a running state the next step runs it; only bytes inside Memory are placed (log 5). -/
def State.withFetchWord (s : State) (nbits w : Nat) : State :=
  s.withMem (s.mem.writeBytes s.pc.toNat ((tableBytes nbits w).take (s.cfg.memSize - s.pc.toNat)))

end Sys2Proof.Machine
end

