-- ==== Sys2Proof/Machine/Boot.lean ====
section
/-! DEFINITION. The reset event with all its parameters (spec/10_state.md R26, spec/70_reset_and_hazards.md R250 to R252).
It is no step (log 15). -/

namespace Sys2Proof.Machine

/-- What the loader and the environment supply at reset (R4). -/
structure Boot where
  /-- `ENTRY`, the reset value of the program counter. -/
  entry : Word
  /-- `IMAGE_BASE`. -/
  imageBase : Word
  /-- `IMAGE`. -/
  image : List Byte
  /-- `RESET_GPR(i)` at index `i` for `i` = 2 to 31; indices 0 and 1 are not used. -/
  gpr : Vector Word 32
  /-- `MEM_INIT`: the contents of Memory before the image is placed. -/
  memInit : Memory
  deriving DecidableEq, Repr

/-- The choices `State.reset` makes: entry 0, no image, registers 0, Memory listing nothing (logs 2 to 5). -/
def Boot.default : Boot :=
  { entry := 0, imageBase := 0, image := [], gpr := Vector.replicate 32 0, memInit := [] }

/-- `MEM_INIT` is a memory of the configured size in canonical form, and the image stands entirely within it (R252). -/
def Boot.fits (b : Boot) (c : Config) : Bool :=
  b.memInit.wf && b.memInit.below c.memSize && decide (b.imageBase.toNat + b.image.length ≤ c.memSize)

/-- `ENTRY` lies inside the image and is even if alignment is enforced (R252). -/
def Boot.entryInImage (b : Boot) (c : Config) : Bool :=
  decide (b.imageBase.toNat ≤ b.entry.toNat) && decide (b.entry.toNat < b.imageBase.toNat + b.image.length)
    && (!c.alignEnforce || b.entry.toNat % 2 == 0)

/-- The state after reset (R26). -/
def State.boot (c : Config) (b : Boot) : State :=
  { regs := (b.gpr.set 0 b.entry).set 1 0xfffffffc#32
    status := .running
    mem := b.memInit.writeBytes b.imageBase.toNat b.image
    breaks := []
    hostCalls := []
    cfg := c }

/-- The `reset` event in any state (R250): the previous state of the core is discarded; the configuration is constant (R20),
and the record of host calls goes on, so that later answers are fresh ones (log 15). -/
def State.resetEvent (s : State) (b : Boot) : State := { State.boot s.cfg b with hostCalls := s.hostCalls }

end Sys2Proof.Machine
end

