-- ==== Sys2Proof/Safety.lean ====
section
/-! DEFINITION. The terms statements about runs use: terminal and safe states, the invariant of the machine, the states a run
can reach. -/

namespace Sys2Proof.Machine

/-- A terminal state: no instruction executes after it (spec/10_state.md R21). -/
def State.terminal (s : State) : Bool := s.status != .running

/-- No fault has been raised (spec/60_exceptions.md R220). -/
def State.safe (s : State) : Bool :=
  match s.status with
  | .faulted _ => false
  | _ => true

/-- The nine opcodes with no assigned meaning (spec/30_encoding.md R59, R60). -/
def unassignedOpcodes : List (BitVec 6) := [0x00, 0x3e, 0x2f, 0x31, 0x33, 0x35, 0x37, 0x39, 0x3f]

/-- A MemoryFault report tells the truth about the state it stands in (R223, R226): the address it names is that of an access
that is misaligned or out of range. -/
def State.memoryReportOk (s : State) (addr : Word) (access : Access) (cause : MemoryCause) : Bool :=
  match cause, access with
  | .misaligned, .fetch => s.cfg.alignEnforce && addr == s.pc && addr.toNat % 2 != 0
  | .misaligned, .load => s.cfg.alignEnforce && addr.toNat % 4 != 0
  | .misaligned, .store => s.cfg.alignEnforce && addr.toNat % 4 != 0
  | .misaligned, .syscall => false
  | .outOfRange, .fetch =>
    (addr == s.pc && decide (s.cfg.memSize < s.pc.toNat + 2)) || (addr == s.pc + 2 && decide (s.cfg.memSize < s.pc.toNat + 4))
  | .outOfRange, .load => decide (s.cfg.memSize < addr.toNat + 4)
  | .outOfRange, .store => decide (s.cfg.memSize < addr.toNat + 4)
  | .outOfRange, .syscall =>
    (addr == s.reg 5 && s.reg 6 != 0 && decide (s.cfg.memSize < addr.toNat + (s.reg 6).toNat))
      || (addr == s.reg 4 && s.reg 5 != 0 && decide (s.cfg.memSize < addr.toNat + (s.reg 5).toNat))

/-- The trap state tells the truth about the state it stands in (R21, R174, R177, R220 to R226): the program counter is that of
the instruction that ended the run, the payload is the one the cause has, and no RegisterFault occurs (R222). -/
def State.statusOk (s : State) : Bool :=
  match s.status with
  | .running => true
  | .exited code => code == s.reg 4
  | .faulted (.decode addr opcode inst) => addr == s.pc && opcode == inst.opcode && unassignedOpcodes.contains opcode
  | .faulted (.register _ _) => false
  | .faulted (.memory addr access cause) => s.memoryReportOk addr access cause
  | .faulted (.syscall addr n) => addr == s.pc && decide (5 < n.toNat)
  | .breakHalted addr =>
    s.cfg.breakMode == .halt && s.breaks.getLast? == some addr && (s.pc == addr + 2 || s.pc == addr + 4)

/-- The invariant: `MEM_SIZE` in its range (R4), Memory canonical and inside `MEM_SIZE` (R30), the trap state truthful. -/
abbrev State.Inv (s : State) : Prop :=
  s.cfg.wf = true ∧ s.mem.wf = true ∧ s.mem.below s.cfg.memSize = true ∧ s.statusOk = true

/-- The states of the machine's runs: reset with any configuration and any loader, steps, and further resets
(spec/70_reset_and_hazards.md R250: reset is the only event besides the step). -/
inductive Reachable : State → Prop where
  | boot (c : Config) (b : Boot) (hc : c.wf = true) (hb : b.fits c = true) : Reachable (State.boot c b)
  | step (s t : State) (hs : Reachable s) (h : step s = .next t) : Reachable t
  | reset (s : State) (b : Boot) (hs : Reachable s) (hb : b.fits s.cfg = true) : Reachable (s.resetEvent b)

end Sys2Proof.Machine
end

