-- ==== Sys2Proof/Certificates/Slice0/Obligations.lean ====
section
/-! DEFINITION. The statements for the provers. Each `def Obligations.<Name> : Prop` is listed in OBLIGATIONS.json; the
definitions under `Sys2Proof.Claims` are the terms they are written in. -/

namespace Sys2Proof.Claims

open Sys2Proof.Machine

/-! ### Fields of an encoding, as numbers (spec/00_scope.md section 5) -/

/-- `bits[lo+k-1 : lo]` of the number `n`. -/
def field (n lo k : Nat) : Nat := n / 2 ^ lo % 2 ^ k

/-- The register a 5-bit selector at bit `lo` names (R56). -/
def sel (n lo : Nat) : Reg := Fin.ofNat 32 (field n lo 5)

/-- The register a primed 3-bit selector at bit `lo` names (R57). -/
def selPrimed (n lo : Nat) : Reg := Fin.ofNat 32 (field n lo 3)

/-- `sext_k` of a `k`-bit field's number. -/
def sext (k v : Nat) : Word := BitVec.ofInt 32 (if v < 2 ^ (k - 1) then (v : Int) else (v : Int) - 2 ^ k)

/-! ### Frames -/

/-- Everything but the registers is as before; every byte of Memory reads as before. -/
def RestSame (s t : State) : Prop :=
  t.status = s.status ∧ t.mem = s.mem ∧ (∀ a, t.mem.read a = s.mem.read a) ∧ t.breaks = s.breaks ∧
    t.hostCalls = s.hostCalls ∧ t.cfg = s.cfg

/-- `t` is `s` after an instruction of `ilen` bytes gave destination `rd` the value `v` (R13, R199): for slot 0 the value is
the next program counter; for another slot the program counter advances by `ilen`; nothing else changes. -/
def Gives (s t : State) (ilen : Word) (rd : Reg) (v : Word) : Prop :=
  (rd = 0 → t.reg 0 = v) ∧ (rd ≠ 0 → t.reg rd = v ∧ t.reg 0 = s.reg 0 + ilen) ∧
    (∀ q : Reg, q ≠ 0 → q ≠ rd → t.reg q = s.reg q) ∧ RestSame s t

/-- `t` is `s` with the program counter at `target` and nothing else changed. -/
def OnlyPc (s t : State) (target : Word) : Prop :=
  t.reg 0 = target ∧ (∀ q : Reg, q ≠ 0 → t.reg q = s.reg q) ∧ RestSame s t

/-! ### Shapes of instruction rules: the encoding of the opcode, and the effect in every state -/

/-- Format R with opcode `op`: `x[rd] <- f(x[rs1], x[rs2])`. -/
def RuleR (op : Nat) (mk : Reg → Reg → Reg → Instr) (f : Word → Word → Word) : Prop :=
  (∀ w : Word, field w.toNat 0 6 = op → decode (.word w) = .ok (mk (sel w.toNat 6) (sel w.toNat 11) (sel w.toNat 16))) ∧
  (∀ rd rs1 rs2 s, ∃ t, exec (mk rd rs1 rs2) s = .next t ∧ Gives s t 4 rd (f (s.reg rs1) (s.reg rs2)))

/-- Format I with opcode `op`: `x[rd] <- f(x[rs1], sext_16(imm16))`. -/
def RuleI (op : Nat) (mk : Reg → Reg → Word → Instr) (f : Word → Word → Word) : Prop :=
  (∀ w : Word, field w.toNat 0 6 = op →
    decode (.word w) = .ok (mk (sel w.toNat 6) (sel w.toNat 11) (sext 16 (field w.toNat 16 16)))) ∧
  (∀ rd rs1 imm s, ∃ t, exec (mk rd rs1 imm) s = .next t ∧ Gives s t 4 rd (f (s.reg rs1) imm))

/-- Format CR with opcode `op`: `x[rd] <- f(x[rd], x[rs2])`. -/
def RuleCR (op : Nat) (mk : Reg → Reg → Instr) (f : Word → Word → Word) : Prop :=
  (∀ h : Half, field h.toNat 0 6 = op → decode (.half h) = .ok (mk (sel h.toNat 6) (sel h.toNat 11))) ∧
  (∀ rd rs2 s, ∃ t, exec (mk rd rs2) s = .next t ∧ Gives s t 2 rd (f (s.reg rd) (s.reg rs2)))

/-- Format CI with opcode `op`: `x[rd'] <- f(x[rd'], sext_7(imm7))`. -/
def RuleCI (op : Nat) (mk : Reg → Word → Instr) (f : Word → Word → Word) : Prop :=
  (∀ h : Half, field h.toNat 0 6 = op →
    decode (.half h) = .ok (mk (selPrimed h.toNat 6) (sext 7 (field h.toNat 9 7)))) ∧
  (∀ rd imm s, ∃ t, exec (mk rd imm) s = .next t ∧ Gives s t 2 rd (f (s.reg rd) imm))

/-- A binary branch, format S with opcode `op`: to `pc + sext_16(imm16)` if `P`, else to `pc + 4`. -/
def RuleBranch2 (op : Nat) (mk : Reg → Reg → Word → Instr) (P : Word → Word → Prop) : Prop :=
  (∀ w : Word, field w.toNat 0 6 = op →
    decode (.word w) = .ok (mk (sel w.toNat 6) (sel w.toNat 11) (sext 16 (field w.toNat 16 16)))) ∧
  (∀ rs1 rs2 imm s, ∃ t, exec (mk rs1 rs2 imm) s = .next t ∧
    (P (s.reg rs1) (s.reg rs2) → OnlyPc s t (s.reg 0 + imm)) ∧
    (¬P (s.reg rs1) (s.reg rs2) → OnlyPc s t (s.reg 0 + 4)))

/-- A unary branch of `ilen` bytes: to `pc + imm` if `P`, else to `pc + ilen`. -/
def UnaryBranch (mk : Reg → Word → Instr) (ilen : Word) (P : Word → Prop) : Prop :=
  ∀ rs1 imm s, ∃ t, exec (mk rs1 imm) s = .next t ∧
    (P (s.reg rs1) → OnlyPc s t (s.reg 0 + imm)) ∧ (¬P (s.reg rs1) → OnlyPc s t (s.reg 0 + ilen))

/-- A unary branch in format S with opcode `op` (R54): the field `rs2` is not used. -/
def RuleBranch1 (op : Nat) (mk : Reg → Word → Instr) (P : Word → Prop) : Prop :=
  (∀ w : Word, field w.toNat 0 6 = op →
    decode (.word w) = .ok (mk (sel w.toNat 6) (sext 16 (field w.toNat 16 16)))) ∧ UnaryBranch mk 4 P

/-- A unary branch in format CS with opcode `op` (R55): the field `rs2'` is not used. -/
def RuleCBranch1 (op : Nat) (mk : Reg → Word → Instr) (P : Word → Prop) : Prop :=
  (∀ h : Half, field h.toNat 0 6 = op →
    decode (.half h) = .ok (mk (selPrimed h.toNat 6) (sext 4 (field h.toNat 12 4)))) ∧ UnaryBranch mk 2 P

/-! ### The results of the operations, in exact arithmetic (R80, R110, R111) -/

def sum (a b : Word) : Word := BitVec.ofNat 32 ((a.toNat + b.toNat) % 2 ^ 32)
def difference (a b : Word) : Word := BitVec.ofInt 32 ((a.toNat : Int) - b.toNat)
def shiftLeft (a b : Word) : Word := BitVec.ofNat 32 (a.toNat * 2 ^ (b.toNat % 32) % 2 ^ 32)
def shiftRight (a b : Word) : Word := BitVec.ofNat 32 (a.toNat / 2 ^ (b.toNat % 32))
def shiftRightSigned (a b : Word) : Word := BitVec.ofInt 32 (a.toInt / 2 ^ (b.toNat % 32))

/-! ### Accesses -/

/-- `addr` is misaligned for an access of `n` bytes and alignment is enforced (R38). -/
def Misaligned (s : State) (addr : Word) (n : Nat) : Prop := s.cfg.alignEnforce = true ∧ addr.toNat % n ≠ 0

/-- The access of `n` bytes at `addr` is in range: the sum is not reduced (R32). -/
def InRange (s : State) (addr : Word) (n : Nat) : Prop := addr.toNat + n ≤ s.cfg.memSize

/-- `s` with `status` set to a fault and nothing else changed (R226). -/
def faulted (s : State) (r : FaultReport) : State := { s with status := .faulted r }

/-- The four bytes at `a .. a+3` as a word, the byte at `a` least significant (R31). -/
def wordAt (m : Memory) (a : Nat) : Word := m.read (a + 3) ++ m.read (a + 2) ++ m.read (a + 1) ++ m.read a

/-- A load of `ilen` bytes (R160, R161): three clauses that exclude each other. -/
def Loads (mk : Reg → Reg → Word → Instr) (ilen : Word) : Prop :=
  ∀ rd base imm s, let ea := s.reg base + imm
    (Misaligned s ea 4 → exec (mk rd base imm) s = .next (faulted s (.memory ea .load .misaligned))) ∧
    (¬Misaligned s ea 4 → ¬InRange s ea 4 →
      exec (mk rd base imm) s = .next (faulted s (.memory ea .load .outOfRange))) ∧
    (¬Misaligned s ea 4 → InRange s ea 4 →
      ∃ t, exec (mk rd base imm) s = .next t ∧ Gives s t ilen rd (wordAt s.mem ea.toNat))

/-- A store of `ilen` bytes (R160, R163): the address stored to is `x[base] + imm`. -/
def Stores (mk : Reg → Reg → Word → Instr) (ilen : Word) : Prop :=
  ∀ src base imm s, let ea := s.reg base + imm
    (Misaligned s ea 4 → exec (mk src base imm) s = .next (faulted s (.memory ea .store .misaligned))) ∧
    (¬Misaligned s ea 4 → ¬InRange s ea 4 →
      exec (mk src base imm) s = .next (faulted s (.memory ea .store .outOfRange))) ∧
    (¬Misaligned s ea 4 → InRange s ea 4 →
      ∃ t, exec (mk src base imm) s = .next t ∧
        t.reg 0 = s.reg 0 + ilen ∧ (∀ q : Reg, q ≠ 0 → t.reg q = s.reg q) ∧
        t.status = s.status ∧ t.breaks = s.breaks ∧ t.hostCalls = s.hostCalls ∧ t.cfg = s.cfg ∧
        (s.mem.wf = true →
          (∀ i, i < 4 → t.mem.read (ea.toNat + i) = (s.reg src).extractLsb' (8 * i) 8) ∧
          (∀ a, a < ea.toNat ∨ ea.toNat + 4 ≤ a → t.mem.read a = s.mem.read a)))

/-- `pointer` and `length` of syscall `n`, where it has a buffer (R173). -/
def buffer (s : State) (n : Nat) : Option (Word × Word) :=
  if n = 1 ∨ n = 2 then some (s.reg 5, s.reg 6) else if n = 3 ∨ n = 5 then some (s.reg 4, s.reg 5) else none

/-- The buffer of syscall `n` leaves Memory (R173). -/
def BufferOut (s : State) (n : Nat) (p l : Word) : Prop :=
  buffer s n = some (p, l) ∧ l ≠ 0 ∧ s.cfg.memSize < p.toNat + l.toNat

/-- The two call instructions with their lengths. -/
def IsCall (mk : Word → Instr) (ilen : Word) : Prop := (mk = .call ∧ ilen = 4) ∨ (mk = .cCall ∧ ilen = 2)

/-! ### Bits an encoding uses (R54, R55, R61) -/

/-- The bits of a standard instruction with this opcode that are not don't-care. -/
def usedWord (op : Nat) : Word :=
  if op ≤ 0x10 then 0x001fffff
  else if op = 0x22 ∨ op = 0x24 ∨ op = 0x2a ∨ op = 0x2c then 0xffff07ff
  else if op = 0x3a then 0xffff003f
  else if op = 0x3c then 0x0000003f
  else 0xffffffff

/-- The bits of a compressed instruction with this opcode that are not don't-care. -/
def usedHalf (op : Nat) : Half :=
  if op = 0x2b ∨ op = 0x2d then 0xf1ff
  else if op = 0x3b then 0xfe3f
  else if op = 0x3d then 0x003f
  else 0xffff

/-- The opcode is one of the 55 assigned ones (R59). -/
def Assigned (op : BitVec 6) : Prop := op ∉ unassignedOpcodes

/-! ### Who may write what -/

/-- The register an instruction names as destination; slot 3 for a system call (R14). -/
def dest : Instr → Option Reg
  | .cMv rd _ | .cAdd rd _ | .cSub rd _ | .cAnd rd _ | .cOr rd _ | .cXor rd _ => some rd
  | .cSll rd _ | .cSrl rd _ | .cSra rd _ => some rd
  | .add rd _ _ | .sub rd _ _ | .and rd _ _ | .or rd _ _ | .xor rd _ _ => some rd
  | .sll rd _ _ | .srl rd _ _ | .sra rd _ _ => some rd
  | .addi rd _ _ | .subi rd _ _ | .andi rd _ _ | .ori rd _ _ | .xori rd _ _ => some rd
  | .slli rd _ _ | .srli rd _ _ | .srai rd _ _ => some rd
  | .cAddi rd _ | .cSubi rd _ | .cAndi rd _ | .cOri rd _ | .cXori rd _ => some rd
  | .cSlli rd _ | .cSrli rd _ | .cSrai rd _ => some rd
  | .li rd _ | .cLi rd _ | .lui rd _ | .cLui rd _ => some rd
  | .load rd _ _ | .cLoad rd _ _ => some rd
  | .call _ | .cCall _ => some 3
  | .store _ _ _ | .cStore _ _ _ => none
  | .bez _ _ | .bnz _ _ | .beq _ _ _ | .bne _ _ _ | .blt _ _ _ | .bge _ _ _ | .bltu _ _ _ | .bgeu _ _ _ => none
  | .cBez _ _ | .cBnz _ _ => none
  | .brk | .cBrk => none

/-- Each operation that has a compressed and a standard form, on one destination and one second operand (R82, R130). -/
def forms (rd rs : Reg) (imm : Word) : List (Instr × Instr) :=
  [(Instr.cAdd rd rs, Instr.add rd rd rs), (.cSub rd rs, .sub rd rd rs), (.cAnd rd rs, .and rd rd rs),
    (.cOr rd rs, .or rd rd rs), (.cXor rd rs, .xor rd rd rs), (.cSll rd rs, .sll rd rd rs), (.cSrl rd rs, .srl rd rd rs),
    (.cSra rd rs, .sra rd rd rs), (.cAddi rd imm, .addi rd rd imm), (.cSubi rd imm, .subi rd rd imm),
    (.cAndi rd imm, .andi rd rd imm), (.cOri rd imm, .ori rd rd imm), (.cXori rd imm, .xori rd rd imm),
    (.cSlli rd imm, .slli rd rd imm), (.cSrli rd imm, .srli rd rd imm), (.cSrai rd imm, .srai rd rd imm),
    (.cLi rd imm, .li rd imm), (.cLui rd imm, .lui rd imm)]

/-- The instruction is CALL or C.CALL. -/
def isCall : Instr → Bool
  | .call _ | .cCall _ => true
  | _ => false

/-- The instruction is STORE or C.STORE. -/
def isStore : Instr → Bool
  | .store _ _ _ | .cStore _ _ _ => true
  | _ => false

/-- The step from `s` runs the instruction `i`. -/
def Runs (s : State) (i : Instr) : Prop := s.status = .running ∧ ∃ bits, s.fetch = .ok bits ∧ decode bits = .ok i

end Sys2Proof.Claims

open Sys2Proof Sys2Proof.Machine Sys2Proof.Claims

/-! ## Encoding -/

/-- Words written out from the field tables of R54 and R55, one per format, decode to the instruction they stand for. -/
def Obligations.SpecWordsDecode : Prop :=
  decode (.word 0b00000000000_11101_11110_11111_000010#32) = .ok (.add 31 30 29) ∧
  decode (.word 0b1111111111111111_00100_00011_010010#32) = .ok (.addi 3 4 0xffffffff) ∧
  decode (.word 0b1111111111111100_00001_00100_101000#32) = .ok (.store 4 1 0xfffffffc) ∧
  decode (.word 0b0001001000110100_00000_00011_100100#32) = .ok (.lui 3 0x12340000) ∧
  decode (.word 0b0000000000000110_0000000000_111010#32) = .ok (.call 6) ∧
  decode (.word 0b0000000000010000_00101_00100_110110#32) = .ok (.bltu 4 5 16) ∧
  decode (.half 0b10001_11111_000011#16) = .ok (.cAdd 31 17) ∧
  decode (.half 0b1111111_011_010011#16) = .ok (.cAddi 3 0xffffffff) ∧
  decode (.half 0b0100_001_011_100111#16) = .ok (.cLoad 3 1 4) ∧
  decode (.half 0b1100_001_100_101001#16) = .ok (.cStore 4 1 0xfffffffc) ∧
  decode (.half 0b0010010_011_100101#16) = .ok (.cLui 3 0x00120000) ∧
  decode (.half 0b1111111_000_111011#16) = .ok (.cCall 127) ∧
  decode (.half 0b0000000000_111101#16) = .ok .cBrk

/-- Decoding the encoding of a well-formed instruction gives the instruction back. -/
def Obligations.DecodeOfEncode : Prop :=
  ∀ i : Instr, i.wellFormed = true → decode (encode i) = .ok i

/-- The decoder on bytes reads an encoded instruction off the front and leaves the bytes after it: instructions of both
lengths may follow one another in any order. -/
def Obligations.DecodeBytesOfEncode : Prop :=
  ∀ (i : Instr) (rest : List Byte), i.wellFormed = true → decodeBytes ((encode i).bytes ++ rest) = .ok (i, rest)

/-- What the decoder accepts is well-formed and encodes with the same length and the same opcode: register indices are in
range, primed ones are 0 to 7, immediates are extended as R58 says. -/
def Obligations.DecodedIsWellFormed : Prop :=
  ∀ (bits : InstBits) (i : Instr), decode bits = .ok i →
    i.wellFormed = true ∧ (encode i).ilen = bits.ilen ∧ (encode i).opcode = bits.opcode

/-- Don't-care bits are ignored, whatever the opcode: two words that agree on the used bits decode to the same instruction, and
the encoder writes zero in the others. -/
def Obligations.DontCareBitsIgnored : Prop :=
  (∀ w w' : Word, w.getLsbD 0 = false → Assigned (w.extractLsb' 0 6) →
    w &&& usedWord (field w.toNat 0 6) = w' &&& usedWord (field w.toNat 0 6) →
    ∃ i, decode (.word w) = .ok i ∧ decode (.word w') = .ok i ∧
      ∀ e, encode i = .word e → e = w &&& usedWord (field w.toNat 0 6)) ∧
  (∀ h h' : Half, h.getLsbD 0 = true → Assigned (h.extractLsb' 0 6) →
    h &&& usedHalf (field h.toNat 0 6) = h' &&& usedHalf (field h.toNat 0 6) →
    ∃ i, decode (.half h) = .ok i ∧ decode (.half h') = .ok i ∧
      ∀ e, encode i = .half e → e = h &&& usedHalf (field h.toNat 0 6))

/-- The parity of the opcode tells the length: every instruction's encoding has an even opcode and 4 bytes or an odd opcode and
2 bytes, and the format of the instruction has that length. -/
def Obligations.OpcodeParityTellsLength : Prop :=
  ∀ i : Instr, (encode i).opcode = i.opcode ∧ (encode i).ilen = i.format.ilen ∧
    ((i.opcode.getLsbD 0 = true ∧ i.format.ilen = 2) ∨ (i.opcode.getLsbD 0 = false ∧ i.format.ilen = 4))

/-! ## The step -/

/-- A step runs the decoded instruction: when what the fetch unit returns decodes to `i`, the step is `exec i`. -/
def Obligations.StepRunsDecoded : Prop :=
  ∀ (s : State) (bits : InstBits) (i : Instr), s.status = .running → s.fetch = .ok bits → decode bits = .ok i →
    step s = exec i s

/-- A step runs the encoded instruction at the program counter: when the bytes there are those of a well-formed instruction,
lie inside Memory and are aligned if alignment is enforced, the step is `exec` of it. -/
def Obligations.StepRunsEncoded : Prop :=
  ∀ (s : State) (i : Instr), s.status = .running → s.cfg.wf = true → i.wellFormed = true →
    s.mem.readBytes s.pc.toNat (encode i).bytes.length = (encode i).bytes →
    s.pc.toNat + (encode i).bytes.length ≤ s.cfg.memSize → ¬Misaligned s s.pc 2 → step s = exec i s

/-- R192: the fetch unit. The clauses follow the two reads in order and exclude each other; a fetch fault changes only
`status`. -/
def Obligations.FetchUnitReadsInstruction : Prop :=
  ∀ s : State, s.cfg.wf = true →
    let p := s.pc.toNat
    (Misaligned s s.pc 2 → s.fetch = .error (.memory s.pc .fetch .misaligned)) ∧
    (¬Misaligned s s.pc 2 → s.cfg.memSize < p + 2 → s.fetch = .error (.memory s.pc .fetch .outOfRange)) ∧
    (¬Misaligned s s.pc 2 → p + 2 ≤ s.cfg.memSize → (s.mem.read p).getLsbD 0 = true →
      s.fetch = .ok (.half (s.mem.read (p + 1) ++ s.mem.read p))) ∧
    (¬Misaligned s s.pc 2 → p + 2 ≤ s.cfg.memSize → (s.mem.read p).getLsbD 0 = false → s.cfg.memSize < p + 4 →
      s.fetch = .error (.memory (s.pc + 2) .fetch .outOfRange)) ∧
    (¬Misaligned s s.pc 2 → (s.mem.read p).getLsbD 0 = false → p + 4 ≤ s.cfg.memSize →
      s.fetch = .ok (.word (wordAt s.mem p))) ∧
    (∀ f, s.status = .running → s.fetch = .error f → step s = .next (faulted s f))

/-- R200: no step is made in a terminal status, so nothing changes until reset, which is the way out. -/
def Obligations.NoStepWhenTerminal : Prop :=
  ∀ s : State, s.status ≠ .running → (∀ t, step s ≠ .next t) ∧ ∀ b, (s.resetEvent b).status = .running

/-- Every running state steps to a next state: no behaviour is left undefined, and ordinary data never stops the model. -/
def Obligations.RunningStateSteps : Prop :=
  ∀ s : State, s.status = .running → ∃ t, step s = .next t

/-- R221: DecodeFault is raised by every fetched instruction with one of the nine unassigned opcodes and by nothing else; it
records the address, the opcode and the bits, changes nothing but `status`, and no instruction executes after it. -/
def Obligations.DecodeFaultExactly : Prop :=
  (∀ (s : State) (bits : InstBits), s.status = .running → s.fetch = .ok bits →
    bits.opcode ∈ unassignedOpcodes →
    step s = .next (faulted s (.decode s.pc bits.opcode bits)) ∧
      ∀ t, step (faulted s (.decode s.pc bits.opcode bits)) ≠ .next t) ∧
  (∀ (s t : State) (a : Word) (op : BitVec 6) (bits : InstBits), s.status = .running → step s = .next t →
    t.status = .faulted (.decode a op bits) →
    s.fetch = .ok bits ∧ a = s.pc ∧ op = bits.opcode ∧ op ∈ unassignedOpcodes)

/-- R226: raising a fault sets `status` and changes nothing else: no register, no byte of Memory, no notification, no host
call; and no instruction executes after it. -/
def Obligations.FaultsArePrecise : Prop :=
  ∀ (s t : State) (f : FaultReport), s.status = .running → step s = .next t → t.status = .faulted f →
    t = faulted s f ∧ ∀ u, step t ≠ .next u

/-- Only these events leave `Running`: the four faults, a CALL or C.CALL with number 0 (the code is `x[4]`, the program counter
stays), and a BREAK or C.BREAK with `BREAK_MODE = halt`; RegisterFault never occurs. -/
def Obligations.OnlyTrapsLeaveRunning : Prop :=
  ∀ s t : State, s.status = .running → step s = .next t →
    (∀ c, t.status = .exited c → (Runs s (.call 0) ∨ Runs s (.cCall 0)) ∧ c = s.reg 4 ∧ t.regs = s.regs) ∧
    (∀ a, t.status = .breakHalted a → (Runs s .brk ∨ Runs s .cBrk) ∧ a = s.pc ∧ s.cfg.breakMode = .halt) ∧
    (∀ a k, t.status ≠ .faulted (.register a k)) ∧
    (∀ a n, t.status = .faulted (.syscall a n) → (Runs s (.call n) ∨ Runs s (.cCall n)) ∧ a = s.pc ∧ 5 < n.toNat)

/-! ## Invariants -/

/-- The invariant is kept by every step from every state that has it. -/
def Obligations.StepKeepsInv : Prop :=
  ∀ s t : State, s.Inv → step s = .next t → t.Inv

/-- The state right after reset has the invariant. -/
def Obligations.ResetHasInv : Prop := State.reset.Inv

/-- Reset with any configuration and any loader that keeps to the boot requirements of R252 gives the invariant. -/
def Obligations.BootHasInv : Prop :=
  ∀ (c : Config) (b : Boot), c.wf = true → b.fits c = true → (State.boot c b).Inv

/-- Every state of every run, with resets anywhere in it, has the invariant. -/
def Obligations.ReachableHasInv : Prop := ∀ s : State, Reachable s → s.Inv

/-- The configuration is constant (R20). -/
def Obligations.ConfigurationConstant : Prop :=
  ∀ s t : State, step s = .next t → t.cfg = s.cfg

/-- R14 and R199: whatever the instruction, no register but slot 0 and the one it names as destination (slot 3 for a system
call) changes. -/
def Obligations.OnlyNamedRegisterChanges : Prop :=
  ∀ (i : Instr) (s t : State) (q : Reg), exec i s = .next t → q ≠ 0 → dest i ≠ some q → t.reg q = s.reg q

/-- R199: Memory changes only by a store or a sys_read: any other instruction leaves every byte as it was. -/
def Obligations.OnlyStoreOrReadCallWritesMemory : Prop :=
  ∀ (i : Instr) (s t : State), exec i s = .next t → isStore i = false → i ≠ .call 1 → i ≠ .cCall 1 →
    t.mem = s.mem ∧ ∀ a, t.mem.read a = s.mem.read a

/-- A step appends at most one breakpoint notification, the address of the instruction, and only for BREAK or C.BREAK with
`BREAK_MODE` other than `disabled`; nothing ever takes one away. -/
def Obligations.NotificationsOnlyFromBreak : Prop :=
  ∀ s t : State, step s = .next t →
    t.breaks = s.breaks ∨
    (t.breaks = s.breaks ++ [s.pc] ∧ (Runs s .brk ∨ Runs s .cBrk) ∧ s.cfg.breakMode ≠ .disabled)

/-- A step puts at most one request on the syscall port, only for CALL or C.CALL with a number 1 to 5, and none when it
raises a fault. The record itself is the model's (log 7). -/
def Obligations.HostCallsOnlyFromCall : Prop :=
  ∀ s t : State, step s = .next t →
    t.hostCalls = s.hostCalls ∨
    (t.status = .running ∧ ∃ q n, t.hostCalls = s.hostCalls ++ [q] ∧ (Runs s (.call n) ∨ Runs s (.cCall n)) ∧
      1 ≤ n.toNat ∧ n.toNat ≤ 5 ∧ q.n = n ∧ q.a0 = s.reg 4 ∧ q.a1 = s.reg 5 ∧ q.a2 = s.reg 6 ∧ q.a3 = s.reg 7)

/-- The notification stream is write-only (R25): a step does the same whatever stands in it, and appends the same events.
For CALL this is said for the same host answer (log 6). -/
def Obligations.NotificationStreamWriteOnly : Prop :=
  ∀ (s t : State) (bs : List Word), step s = .next t →
    ∃ e, t.breaks = s.breaks ++ e ∧ step { s with breaks := bs } = .next { t with breaks := bs ++ e }

/-- R197: but for CALL and C.CALL a step is a function of registers, Memory, status and configuration alone: two states that
agree on them, whatever notifications and host calls lie behind them, step to states that agree on them. -/
def Obligations.StepIsFunctionOfCoreState : Prop :=
  ∀ s s' t : State, s.regs = s'.regs → s.mem = s'.mem → s.status = s'.status → s.cfg = s'.cfg →
    (∀ i, Runs s i → isCall i = false) → step s = .next t →
    ∃ t', step s' = .next t' ∧ t'.regs = t.regs ∧ t'.mem = t.mem ∧ t'.status = t.status ∧ t'.cfg = t.cfg

/-! ## Arithmetic, logic and shifts -/

/-- R83 to R87. -/
def Obligations.ArithLogicRegisterForms : Prop :=
  RuleR 0x02 .add sum ∧ RuleR 0x04 .sub difference ∧ RuleR 0x06 .and (· &&& ·) ∧ RuleR 0x08 .or (· ||| ·) ∧
    RuleR 0x0a .xor (· ^^^ ·)

/-- R88 to R92. -/
def Obligations.ArithLogicImmediateForms : Prop :=
  RuleI 0x12 .addi sum ∧ RuleI 0x14 .subi difference ∧ RuleI 0x16 .andi (· &&& ·) ∧ RuleI 0x18 .ori (· ||| ·) ∧
    RuleI 0x1a .xori (· ^^^ ·)

/-- R93 to R97. -/
def Obligations.ArithLogicCompressedRegisterForms : Prop :=
  RuleCR 0x03 .cAdd sum ∧ RuleCR 0x05 .cSub difference ∧ RuleCR 0x07 .cAnd (· &&& ·) ∧ RuleCR 0x09 .cOr (· ||| ·) ∧
    RuleCR 0x0b .cXor (· ^^^ ·)

/-- R98 to R102. -/
def Obligations.ArithLogicCompressedImmediateForms : Prop :=
  RuleCI 0x13 .cAddi sum ∧ RuleCI 0x15 .cSubi difference ∧ RuleCI 0x17 .cAndi (· &&& ·) ∧ RuleCI 0x19 .cOri (· ||| ·) ∧
    RuleCI 0x1b .cXori (· ^^^ ·)

/-- R103: C.MV copies the second register; the old value of `rd` is no operand. -/
def Obligations.RegisterMove : Prop := RuleCR 0x01 .cMv (fun _ b => b)

/-- R112 to R114: the amount is the low 5 bits of the second operand. -/
def Obligations.ShiftRegisterForms : Prop :=
  RuleR 0x0c .sll shiftLeft ∧ RuleR 0x0e .srl shiftRight ∧ RuleR 0x10 .sra shiftRightSigned

/-- R115 to R117. -/
def Obligations.ShiftImmediateForms : Prop :=
  RuleI 0x1c .slli shiftLeft ∧ RuleI 0x1e .srli shiftRight ∧ RuleI 0x20 .srai shiftRightSigned

/-- R118 to R120. -/
def Obligations.ShiftCompressedRegisterForms : Prop :=
  RuleCR 0x0d .cSll shiftLeft ∧ RuleCR 0x0f .cSrl shiftRight ∧ RuleCR 0x11 .cSra shiftRightSigned

/-- R121 to R123. -/
def Obligations.ShiftCompressedImmediateForms : Prop :=
  RuleCI 0x1d .cSlli shiftLeft ∧ RuleCI 0x1f .cSrli shiftRight ∧ RuleCI 0x21 .cSrai shiftRightSigned

/-- The last sentence of R82 and its like for every operation with both forms: the compressed and the standard form give the
same state but for the program counter, which is the same where it is the destination, and otherwise 2 more after the standard
form than after the compressed one. The advances themselves, by 2 and by 4, are stated form by form, not here. -/
def Obligations.CompressedMatchesStandard : Prop :=
  ∀ (s : State) (rd rs : Reg) (imm : Word) (c i : Instr), (c, i) ∈ forms rd rs imm →
    ∃ t u, exec c s = .next t ∧ exec i s = .next u ∧ (∀ q : Reg, q ≠ 0 → t.reg q = u.reg q) ∧
      (rd = 0 → t.reg 0 = u.reg 0) ∧ (rd ≠ 0 → t.reg 0 + 2 = u.reg 0) ∧ RestSame s t ∧ RestSame s u

/-! ## Immediate loads -/

/-- R131 to R134: the destination gets the immediate, extended or placed as the format says; its old value is no operand. -/
def Obligations.ImmediateLoads : Prop :=
  (∀ w : Word, field w.toNat 0 6 = 0x22 → decode (.word w) = .ok (.li (sel w.toNat 6) (sext 16 (field w.toNat 16 16)))) ∧
  (∀ h : Half, field h.toNat 0 6 = 0x23 → decode (.half h) = .ok (.cLi (selPrimed h.toNat 6) (sext 7 (field h.toNat 9 7)))) ∧
  (∀ w : Word, field w.toNat 0 6 = 0x24 →
    decode (.word w) = .ok (.lui (sel w.toNat 6) (BitVec.ofNat 32 (field w.toNat 16 16 * 2 ^ 16)))) ∧
  (∀ h : Half, field h.toNat 0 6 = 0x25 →
    decode (.half h) = .ok (.cLui (selPrimed h.toNat 6) (BitVec.ofNat 32 (field h.toNat 9 7 * 2 ^ 16)))) ∧
  (∀ rd imm s, ∃ t, exec (.li rd imm) s = .next t ∧ Gives s t 4 rd imm) ∧
  (∀ rd imm s, ∃ t, exec (.cLi rd imm) s = .next t ∧ Gives s t 2 rd imm) ∧
  (∀ rd imm s, ∃ t, exec (.lui rd imm) s = .next t ∧ Gives s t 4 rd imm) ∧
  (∀ rd imm s, ∃ t, exec (.cLui rd imm) s = .next t ∧ Gives s t 2 rd imm)

/-! ## Branches -/

/-- R142, R143, R150, R151: the unary branches. -/
def Obligations.UnaryBranches : Prop :=
  RuleBranch1 0x2a .bez (· = 0) ∧ RuleBranch1 0x2c .bnz (· ≠ 0) ∧ RuleCBranch1 0x2b .cBez (· = 0) ∧
    RuleCBranch1 0x2d .cBnz (· ≠ 0)

/-- R144 to R149: the binary branches, signed and unsigned. -/
def Obligations.BinaryBranches : Prop :=
  RuleBranch2 0x2e .beq (fun a b => a = b) ∧ RuleBranch2 0x30 .bne (fun a b => a ≠ b) ∧
  RuleBranch2 0x32 .blt (fun a b => a.toInt < b.toInt) ∧ RuleBranch2 0x34 .bge (fun a b => a.toInt ≥ b.toInt) ∧
  RuleBranch2 0x36 .bltu (fun a b => a.toNat < b.toNat) ∧ RuleBranch2 0x38 .bgeu (fun a b => a.toNat ≥ b.toNat)

/-- R66: the idioms. -/
def Obligations.Idioms : Prop :=
  ∀ (s : State) (r : Reg) (off : Word),
    (r ≠ 0 → ∃ t, exec (.cMv r r) s = .next t ∧ OnlyPc s t (s.reg 0 + 2)) ∧
    (∃ t, exec (.addi 0 0 off) s = .next t ∧ OnlyPc s t (s.reg 0 + off)) ∧
    (∃ t, exec (.cAddi 0 off) s = .next t ∧ OnlyPc s t (s.reg 0 + off)) ∧
    (∃ t, exec (.li 0 off) s = .next t ∧ OnlyPc s t off) ∧
    (∃ t, exec (.cMv 0 r) s = .next t ∧ OnlyPc s t (s.reg r)) ∧
    (∃ t, exec (.addi 2 0 8) s = .next t ∧ Gives s t 4 2 (s.reg 0 + 8)) ∧
    (¬Misaligned s (s.reg 1) 4 → InRange s (s.reg 1) 4 →
      ∃ t, exec (.load 0 1 0) s = .next t ∧ OnlyPc s t (wordAt s.mem (s.reg 1).toNat)) ∧
    exec (.cMv 0 0) s = .next s

/-! ## Loads, stores and Memory -/

/-- R161, R162: the loads, their encodings and their effect, faults included. -/
def Obligations.LoadForms : Prop :=
  (∀ w : Word, field w.toNat 0 6 = 0x26 →
    decode (.word w) = .ok (.load (sel w.toNat 6) (sel w.toNat 11) (sext 16 (field w.toNat 16 16)))) ∧
  (∀ h : Half, field h.toNat 0 6 = 0x27 →
    decode (.half h) = .ok (.cLoad (selPrimed h.toNat 6) (selPrimed h.toNat 9) (sext 4 (field h.toNat 12 4)))) ∧
  Loads .load 4 ∧ Loads .cLoad 2

/-- R163, R164: the stores, their encodings and their effect, faults included. -/
def Obligations.StoreForms : Prop :=
  (∀ w : Word, field w.toNat 0 6 = 0x28 →
    decode (.word w) = .ok (.store (sel w.toNat 6) (sel w.toNat 11) (sext 16 (field w.toNat 16 16)))) ∧
  (∀ h : Half, field h.toNat 0 6 = 0x29 →
    decode (.half h) = .ok (.cStore (selPrimed h.toNat 6) (selPrimed h.toNat 9) (sext 4 (field h.toNat 12 4)))) ∧
  Stores .store 4 ∧ Stores .cStore 2

/-- The round trip of R35: a STORE of V to X followed by a LOAD from X returns V, for any V and any X inside Memory (aligned, if
alignment is enforced), into any register but the program counter, through any base registers. -/
def Obligations.StoreThenLoadReturnsValue : Prop :=
  ∀ (s t : State) (src base rd base' : Reg) (imm imm' : Word), s.mem.wf = true → exec (.store src base imm) s = .next t →
    t.status = .running → t.reg base' + imm' = s.reg base + imm → rd ≠ 0 →
    ∃ u, exec (.load rd base' imm') t = .next u ∧ u.reg rd = s.reg src ∧ u.status = .running

/-- R45: a store into the bytes of the next instruction is seen by the next fetch. -/
def Obligations.NextFetchSeesStore : Prop :=
  ∀ (s t : State) (src base : Reg) (imm : Word), s.cfg.wf = true → s.mem.wf = true →
    s.reg base + imm = s.reg 0 + 4 → ¬Misaligned s (s.reg base + imm) 4 → InRange s (s.reg base + imm) 4 →
    exec (.store src base imm) s = .next t →
    t.fetch = .ok (if (s.reg src).getLsbD 0 then .half ((s.reg src).extractLsb' 0 16) else .word (s.reg src))

/-- R31: little-endian. A word read is its four bytes, the lowest address least significant; a half-word its two; a word
written puts bits `8i+7 .. 8i` at offset `i`, and reading it back as two half-words gives the low half at the low address. -/
def Obligations.LittleEndian : Prop :=
  ∀ (m : Memory) (a : Nat) (v : Word),
    (∀ i, i < 4 → (m.readWord a).extractLsb' (8 * i) 8 = m.read (a + i)) ∧
    (∀ i, i < 2 → (m.readHalf a).extractLsb' (8 * i) 8 = m.read (a + i)) ∧
    (m.wf = true →
      (∀ i, i < 4 → (m.writeWord a v).read (a + i) = v.extractLsb' (8 * i) 8) ∧
      (m.writeWord a v).readHalf a = v.extractLsb' 0 16 ∧ (m.writeWord a v).readHalf (a + 2) = v.extractLsb' 16 16 ∧
      (m.writeWord a v).readWord a = v)

/-- R33: no wrap inside one access, whatever `MEM_SIZE`: a word access at the last three addresses and a half-word fetch at
the last one are Memory faults, and so is the fetch of a standard instruction that starts in the last three bytes. -/
def Obligations.NoWrapInsideAccess : Prop :=
  ∀ (s : State), s.cfg.wf = true →
    (∀ rd base imm, (0xfffffffd : Nat) ≤ (s.reg base + imm).toNat →
      (∃ c, exec (.load rd base imm) s = .next (faulted s (.memory (s.reg base + imm) .load c))) ∧
      (∃ c, exec (.cLoad rd base imm) s = .next (faulted s (.memory (s.reg base + imm) .load c))) ∧
      (∃ c, exec (.store rd base imm) s = .next (faulted s (.memory (s.reg base + imm) .store c))) ∧
      (∃ c, exec (.cStore rd base imm) s = .next (faulted s (.memory (s.reg base + imm) .store c)))) ∧
    (s.status = .running → s.pc = 0xffffffff → ∃ c, step s = .next (faulted s (.memory 0xffffffff .fetch c))) ∧
    (s.status = .running → (0xfffffffd : Nat) ≤ s.pc.toNat → s.pc ≠ 0xffffffff → s.cfg.memSize = 2 ^ 32 →
      ¬Misaligned s s.pc 2 → (s.mem.read s.pc.toNat).getLsbD 0 = false →
      step s = .next (faulted s (.memory (s.pc + 2) .fetch .outOfRange)))

/-- R47: a word access at the reset stack pointer is in range only when `MEM_SIZE = 2^32`; with any smaller size a STORE there
is a Memory fault. -/
def Obligations.ResetStackPointerNeedsFullMemory : Prop :=
  ∀ (s : State) (r : Reg), s.cfg.wf = true → s.reg 1 = 0xfffffffc →
    (InRange s (s.reg 1) 4 ↔ s.cfg.memSize = 2 ^ 32) ∧
    (s.cfg.memSize ≠ 2 ^ 32 → exec (.store r 1 0) s = .next (faulted s (.memory 0xfffffffc .store .outOfRange))) ∧
    (s.cfg.memSize = 2 ^ 32 → ∃ t, exec (.store r 1 0) s = .next t ∧ t.status = s.status)

/-- The canonical form: two canonical memories that read alike everywhere are equal data. -/
def Obligations.CanonicalMemoryIsUnique : Prop :=
  ∀ m m' : Memory, m.wf = true → m'.wf = true → (∀ a, m.read a = m'.read a) → m = m'

/-! ## System -/

/-- R171 and R224: the syscall number is the instruction's immediate, zero-extended; a number above 5 raises SyscallFault with
the instruction's address and the number, whatever the registers hold, and changes nothing else. -/
def Obligations.UnknownSyscallFaults : Prop :=
  (∀ w : Word, field w.toNat 0 6 = 0x3a → decode (.word w) = .ok (.call (BitVec.ofNat 32 (field w.toNat 16 16)))) ∧
  (∀ h : Half, field h.toNat 0 6 = 0x3b → decode (.half h) = .ok (.cCall (BitVec.ofNat 32 (field h.toNat 9 7)))) ∧
  (∀ mk ilen (n : Word) s, IsCall mk ilen → 5 < n.toNat → exec (mk n) s = .next (faulted s (.syscall (s.reg 0) n))) ∧
  (∀ mk ilen (n : Word) s, IsCall mk ilen → n.toNat ≤ 5 →
    ∀ t a k, s.status = .running → exec (mk n) s = .next t → t.status ≠ .faulted (.syscall a k))

/-- R174: sys_exit ends the run with all 32 bits of `x[4]` as the code and changes nothing else: the program counter stays at
the call, `x[3]` is not written. -/
def Obligations.SysExitEndsRun : Prop :=
  ∀ mk ilen s, IsCall mk ilen → exec (mk 0) s = .next { s with status := .exited (s.reg 4) }

/-- R173: the range check of a syscall's buffer: MemoryFault before the host does anything; none for length 0; none on
alignment. -/
def Obligations.SyscallBufferCheck : Prop :=
  ∀ mk ilen (n : Word) s, IsCall mk ilen → 1 ≤ n.toNat → n.toNat ≤ 5 →
    (∀ p l, BufferOut s n.toNat p l → exec (mk n) s = .next (faulted s (.memory p .syscall .outOfRange))) ∧
    ((¬∃ p l, BufferOut s n.toNat p l) → ∃ t, exec (mk n) s = .next t ∧ t.status = s.status)

/-- A syscall 1 to 5 whose buffer is inside Memory completes (R172, R175, R176): the program counter passes the instruction,
`x[3]` gets the host's result (0 for sys_write with length 0), no other register changes, Memory changes only inside a
sys_read's buffer, and one request with `x[4]` to `x[7]` goes out on the syscall port. The result and the bytes are free values:
nothing is known of `Config.hostResult` (log 6); the record of requests is the model's (log 7); that a request goes out for
sys_write with length 0 too is the model's deduction (DEDUCED, log 8). -/
def Obligations.SyscallCompletes : Prop :=
  ∀ mk ilen (n : Word) s, IsCall mk ilen → 1 ≤ n.toNat → n.toNat ≤ 5 → (¬∃ p l, BufferOut s n.toNat p l) →
    ∃ t, exec (mk n) s = .next t ∧ t.reg 0 = s.reg 0 + ilen ∧
      (n = 2 → s.reg 6 = 0 → t.reg 3 = 0) ∧
      (¬(n = 2 ∧ s.reg 6 = 0) → t.reg 3 = Config.hostResult s.hostCalls.length) ∧
      (∀ q : Reg, q ≠ 0 → q ≠ 3 → t.reg q = s.reg q) ∧
      (n ≠ 1 → t.mem = s.mem ∧ ∀ a, t.mem.read a = s.mem.read a) ∧
      (n = 1 → s.mem.wf = true → ∀ a, a < (s.reg 5).toNat ∨ (s.reg 5).toNat + (s.reg 6).toNat ≤ a →
        t.mem.read a = s.mem.read a) ∧
      (∃ bytes, t.hostCalls = s.hostCalls ++ [⟨n, s.reg 4, s.reg 5, s.reg 6, s.reg 7, bytes⟩]) ∧
      t.status = s.status ∧ t.breaks = s.breaks ∧ t.cfg = s.cfg

/-- What the host is handed and hands back (R172): sys_write hands it the bytes of its buffer, sys_open and sys_create those
of the path; sys_read's buffer holds the host's bytes afterwards, free values (log 6). -/
def Obligations.SyscallBuffersMoveBytes : Prop :=
  ∀ mk ilen (n : Word) s t q, IsCall mk ilen → exec (mk n) s = .next t → t.hostCalls = s.hostCalls ++ [q] →
    (n = 2 → q.bytes.length = (s.reg 6).toNat ∧
      ∀ i, i < (s.reg 6).toNat → q.bytes[i]? = some (s.mem.read ((s.reg 5).toNat + i))) ∧
    (n = 3 ∨ n = 5 → q.bytes.length = (s.reg 5).toNat ∧
      ∀ i, i < (s.reg 5).toNat → q.bytes[i]? = some (s.mem.read ((s.reg 4).toNat + i))) ∧
    (n = 1 → s.mem.wf = true → ∀ i, i < (s.reg 6).toNat →
      t.mem.read ((s.reg 5).toNat + i) = Config.hostByte s.hostCalls.length i)

/-- R177 to R179: what a breakpoint does in each `BREAK_MODE`, and the encodings of BREAK and C.BREAK. -/
def Obligations.BreakpointModes : Prop :=
  (∀ w : Word, field w.toNat 0 6 = 0x3c → decode (.word w) = .ok .brk) ∧
  (∀ h : Half, field h.toNat 0 6 = 0x3d → decode (.half h) = .ok .cBrk) ∧
  (∀ (i : Instr) (ilen : Word) (s : State), (i = .brk ∧ ilen = 4) ∨ (i = .cBrk ∧ ilen = 2) →
    ∃ t, exec i s = .next t ∧ t.reg 0 = s.reg 0 + ilen ∧ (∀ q : Reg, q ≠ 0 → t.reg q = s.reg q) ∧
      t.mem = s.mem ∧ (∀ a, t.mem.read a = s.mem.read a) ∧ t.hostCalls = s.hostCalls ∧ t.cfg = s.cfg ∧
      (s.cfg.breakMode = .disabled → t.breaks = s.breaks ∧ t.status = s.status) ∧
      (s.cfg.breakMode = .notify → t.breaks = s.breaks ++ [s.reg 0] ∧ t.status = s.status) ∧
      (s.cfg.breakMode = .halt → t.breaks = s.breaks ++ [s.reg 0] ∧ t.status = .breakHalted (s.reg 0)))

/-! ## Reset and the status port -/

/-- R26: the state after reset, for every configuration, entry, image and contents the loader and the environment supply. -/
def Obligations.ResetState : Prop :=
  ∀ (c : Config) (b : Boot), b.fits c = true →
    (State.boot c b).reg 0 = b.entry ∧ (State.boot c b).reg 1 = 0xfffffffc ∧
    (∀ r : Reg, 2 ≤ r.val → (State.boot c b).reg r = b.gpr[r]) ∧
    (State.boot c b).status = .running ∧ (State.boot c b).breaks = [] ∧ (State.boot c b).cfg = c ∧
    (∀ i, i < b.image.length → (State.boot c b).mem.read (b.imageBase.toNat + i) = b.image.getD i 0) ∧
    (∀ a, a < b.imageBase.toNat ∨ b.imageBase.toNat + b.image.length ≤ a →
      (State.boot c b).mem.read a = b.memInit.read a)

/-- R250: reset may occur in any state and discards the whole previous state of the core: what follows depends on the loader and
the configuration alone. The record of host calls, the model's own, goes on (log 15). -/
def Obligations.ResetFromAnyState : Prop :=
  ∀ (s : State) (b : Boot), s.resetEvent b = { State.boot s.cfg b with hostCalls := s.hostCalls } ∧
    (s.resetEvent b).reg 0 = b.entry ∧ (s.resetEvent b).reg 1 = 0xfffffffc ∧ (s.resetEvent b).status = .running ∧
    (s.resetEvent b).breaks = []

/-- `State.reset` is the reset state of R26 with the model's own choices for what R26 leaves to the loader and the environment
(DESIGN CHOICE, logs 1 to 5): entry 0, registers 2 to 31 zero, Memory reading 0, the default configuration. -/
def Obligations.ModelResetChoices : Prop :=
  State.reset = State.boot Config.default Boot.default ∧ State.reset.reg 0 = 0 ∧ State.reset.reg 1 = 0xfffffffc ∧
    (∀ r : Reg, 2 ≤ r.val → State.reset.reg r = 0) ∧ (∀ a, State.reset.mem.read a = 0) ∧ State.reset.status = .running

/-- The codes of the status port (the table of R220). -/
def Obligations.StatusPortCodes : Prop :=
  Status.running.code = 0 ∧ (∀ a op b, (Status.faulted (.decode a op b)).code = 1) ∧
  (∀ a k, (Status.faulted (.register a k)).code = 2) ∧ (∀ a k c, (Status.faulted (.memory a k c)).code = 3) ∧
  (∀ a n, (Status.faulted (.syscall a n)).code = 4) ∧ (∀ a, (Status.breakHalted a).code = 5) ∧
  (∀ c, (Status.exited c).code = 6)
end

