-- ==== Sys2Proof/Laws/Decode.lean ====
section
/-! SUPPORT. The small lemmas of the encoder's layouts: what the decoder's field readers find in each of them. -/

namespace Sys2Proof

/-! ### Fields of an appended bit vector -/

theorem extract_append_low {a b : Nat} (x : BitVec a) (y : BitVec b) (lo len : Nat) (h : lo + len ≤ b) :
    (x ++ y).extractLsb' lo len = y.extractLsb' lo len := by
  ext i hi
  rw [BitVec.getElem_extractLsb', BitVec.getElem_extractLsb', BitVec.getLsbD_append, if_pos (by omega)]

theorem extract_append_high {a b : Nat} (x : BitVec a) (y : BitVec b) (lo len : Nat) (h : b ≤ lo) :
    (x ++ y).extractLsb' lo len = x.extractLsb' (lo - b) len := by
  ext i hi
  rw [BitVec.getElem_extractLsb', BitVec.getElem_extractLsb', BitVec.getLsbD_append, if_neg (by omega)]
  congr 1; omega

theorem extract_self {a : Nat} (x : BitVec a) : x.extractLsb' 0 a = x := by
  ext i hi
  rw [BitVec.getElem_extractLsb', Nat.zero_add, BitVec.getLsbD_eq_getElem hi]

/-- The lowest field of `x ++ y`. -/
theorem field_low {a b : Nat} (x : BitVec a) (y : BitVec b) : (x ++ y).extractLsb' 0 b = y := by
  rw [extract_append_low _ _ _ _ (by omega), extract_self]

/-- The middle field of `x ++ y ++ z`. -/
theorem field_mid {a b c : Nat} (x : BitVec a) (y : BitVec b) (z : BitVec c) :
    (x ++ y ++ z).extractLsb' c b = y := by
  rw [extract_append_high _ _ _ _ (le_refl c), Nat.sub_self, field_low]

/-- The third field from below of `w ++ x ++ y ++ z`. -/
theorem field_third {a b c d : Nat} (w : BitVec a) (x : BitVec b) (y : BitVec c) (z : BitVec d) :
    (w ++ x ++ y ++ z).extractLsb' (d + c) b = x := by
  rw [extract_append_high _ _ _ _ (by omega), Nat.add_sub_cancel_left, field_mid]

/-- The fourth field from below. -/
theorem field_fourth {a b c d e : Nat} (v : BitVec a) (w : BitVec b) (x : BitVec c) (y : BitVec d) (z : BitVec e) :
    (v ++ w ++ x ++ y ++ z).extractLsb' (e + d + c) b = w := by
  rw [extract_append_high _ _ _ _ (by omega), show e + d + c - e = d + c by omega, field_third]

/-- The highest field of two. -/
theorem top_of_two {a b : Nat} (x : BitVec a) (y : BitVec b) : (x ++ y).extractLsb' b a = x := by
  rw [extract_append_high _ _ _ _ (le_refl b), Nat.sub_self, extract_self]

/-- The highest field of three. -/
theorem top_of_three {a b c : Nat} (x : BitVec a) (y : BitVec b) (z : BitVec c) :
    (x ++ y ++ z).extractLsb' (c + b) a = x := by
  rw [extract_append_high _ _ _ _ (by omega), Nat.add_sub_cancel_left, top_of_two]

/-- The highest field of four. -/
theorem top_of_four {a b c d : Nat} (w : BitVec a) (x : BitVec b) (y : BitVec c) (z : BitVec d) :
    (w ++ x ++ y ++ z).extractLsb' (d + c + b) a = w := by
  rw [extract_append_high _ _ _ _ (by omega), show d + c + b - d = c + b by omega, top_of_three]

/-! ### Selectors -/

theorem sel5_toFin (r : Reg) : (sel5 r).toFin = r := rfl

/-- A primed selector gives its register back (R57). -/
theorem sel3_toFin (r : Reg) (h : primed r = true) : ((sel3 r).setWidth 5).toFin = r := by
  revert r; decide

/-! ### Standard formats (R54) -/

theorem layoutR_opcode (op : BitVec 6) (rd rs1 rs2 : Reg) : (layoutR op rd rs1 rs2).extractLsb' 0 6 = op :=
  field_low (a := 26) _ op
theorem layoutR_rd (op : BitVec 6) (rd rs1 rs2 : Reg) : reg5 (layoutR op rd rs1 rs2) 6 = rd :=
  congrArg BitVec.toFin (field_mid (a := 21) _ (sel5 rd) op)
theorem layoutR_rs1 (op : BitVec 6) (rd rs1 rs2 : Reg) : reg5 (layoutR op rd rs1 rs2) 11 = rs1 :=
  congrArg BitVec.toFin (field_third (a := 16) _ (sel5 rs1) (sel5 rd) op)
theorem layoutR_rs2 (op : BitVec 6) (rd rs1 rs2 : Reg) : reg5 (layoutR op rd rs1 rs2) 16 = rs2 :=
  congrArg BitVec.toFin (field_fourth (0#11) (sel5 rs2) (sel5 rs1) (sel5 rd) op)

theorem layoutI_opcode (op : BitVec 6) (rd rs1 : Reg) (imm : Word) : (layoutI op rd rs1 imm).extractLsb' 0 6 = op :=
  field_low (a := 26) _ op
theorem layoutI_rd (op : BitVec 6) (rd rs1 : Reg) (imm : Word) : reg5 (layoutI op rd rs1 imm) 6 = rd :=
  congrArg BitVec.toFin (field_mid (a := 21) _ (sel5 rd) op)
theorem layoutI_rs1 (op : BitVec 6) (rd rs1 : Reg) (imm : Word) : reg5 (layoutI op rd rs1 imm) 11 = rs1 :=
  congrArg BitVec.toFin (field_third (a := 16) _ (sel5 rs1) (sel5 rd) op)
/-- The immediate of format I comes back when it fits its field (R58). -/
theorem layoutI_imm (op : BitVec 6) (rd rs1 : Reg) (imm : Word) (h : fitsSigned16 imm = true) :
    imm16 (layoutI op rd rs1 imm) = imm :=
  (congrArg (BitVec.signExtend 32) (top_of_four (imm.extractLsb' 0 16) (sel5 rs1) (sel5 rd) op)).trans (by
    simpa [fitsSigned16] using h)

theorem layoutS_opcode (op : BitVec 6) (rs1 rs2 : Reg) (imm : Word) : (layoutS op rs1 rs2 imm).extractLsb' 0 6 = op :=
  field_low (a := 26) _ op
theorem layoutS_rs1 (op : BitVec 6) (rs1 rs2 : Reg) (imm : Word) : reg5 (layoutS op rs1 rs2 imm) 6 = rs1 :=
  congrArg BitVec.toFin (field_mid (a := 21) _ (sel5 rs1) op)
theorem layoutS_rs2 (op : BitVec 6) (rs1 rs2 : Reg) (imm : Word) : reg5 (layoutS op rs1 rs2 imm) 11 = rs2 :=
  congrArg BitVec.toFin (field_third (a := 16) _ (sel5 rs2) (sel5 rs1) op)
/-- The immediate of format S comes back when it fits its field (R58). -/
theorem layoutS_imm (op : BitVec 6) (rs1 rs2 : Reg) (imm : Word) (h : fitsSigned16 imm = true) :
    imm16 (layoutS op rs1 rs2 imm) = imm :=
  (congrArg (BitVec.signExtend 32) (top_of_four (imm.extractLsb' 0 16) (sel5 rs2) (sel5 rs1) op)).trans (by
    simpa [fitsSigned16] using h)

theorem layoutU_opcode (op : BitVec 6) (rd : Reg) (imm : Word) : (layoutU op rd imm).extractLsb' 0 6 = op :=
  field_low (a := 26) _ op
theorem layoutU_rd (op : BitVec 6) (rd : Reg) (imm : Word) : reg5 (layoutU op rd imm) 6 = rd :=
  congrArg BitVec.toFin (field_mid (a := 21) _ (sel5 rd) op)

/-- A word is its upper half beside its lower half. -/
theorem halves (v : Word) : v.extractLsb' 16 16 ++ v.extractLsb' 0 16 = v := by
  ext i hi
  simp only [BitVec.getElem_append, BitVec.getElem_extractLsb']
  split <;> (rw [BitVec.getLsbD_eq_getElem (by omega)]; congr 1; omega)

/-- The operand of format U comes back when it lies in the upper half (R58). -/
theorem layoutU_imm (op : BitVec 6) (rd : Reg) (imm : Word) (h : fitsUpper16 imm = true) :
    upper16 (layoutU op rd imm) = imm := by
  have h0 : imm.extractLsb' 0 16 = 0#16 := by simpa [fitsUpper16] using h
  have ht : (layoutU op rd imm).extractLsb' 16 16 = imm.extractLsb' 16 16 :=
    top_of_four (imm.extractLsb' 16 16) (0#5) (sel5 rd) op
  rw [upper16, ht, ← h0, halves]

theorem layoutSys_opcode (op : BitVec 6) (n : Word) : (layoutSys op n).extractLsb' 0 6 = op :=
  field_low (a := 26) _ op

/-- A word whose bits from `k` on are zero is the zero-extension of its low `k` bits. -/
theorem setWidth_low (n : Word) (k : Nat) (hk : k ≤ 32) (h : n.extractLsb' k (32 - k) = 0) :
    (n.extractLsb' 0 k).setWidth 32 = n := by
  ext i hi
  simp only [BitVec.getElem_setWidth, BitVec.getLsbD_extractLsb', Nat.zero_add]
  by_cases hik : i < k
  · simp only [hik, decide_true, Bool.true_and]
    rw [BitVec.getLsbD_eq_getElem (by omega)]
  · have hb := congrArg (·.getLsbD (i - k)) h
    simp only [BitVec.getLsbD_extractLsb', show i - k < 32 - k by omega, decide_true, Bool.true_and,
      show k + (i - k) = i by omega] at hb
    rw [← BitVec.getLsbD_eq_getElem hi, hb]
    simp [hik]

/-- The syscall number of CALL comes back when it has 16 bits (R58). -/
theorem layoutSys_number (op : BitVec 6) (n : Word) (h : fitsNumber16 n = true) : number16 (layoutSys op n) = n :=
  (congrArg (BitVec.setWidth 32) (top_of_three (n.extractLsb' 0 16) (0#10) op)).trans
    (setWidth_low n 16 (by decide) (by simpa [fitsNumber16] using h))

/-! ### Compressed formats (R55) -/

theorem layoutCR_opcode (op : BitVec 6) (rd rs2 : Reg) : (layoutCR op rd rs2).extractLsb' 0 6 = op :=
  field_low (a := 10) _ op
theorem layoutCR_rd (op : BitVec 6) (rd rs2 : Reg) : reg5 (layoutCR op rd rs2) 6 = rd :=
  congrArg BitVec.toFin (field_mid (sel5 rs2) (sel5 rd) op)
theorem layoutCR_rs2 (op : BitVec 6) (rd rs2 : Reg) : reg5 (layoutCR op rd rs2) 11 = rs2 :=
  congrArg BitVec.toFin (top_of_three (sel5 rs2) (sel5 rd) op)

theorem layoutCI_opcode (op : BitVec 6) (rd : Reg) (imm : Word) : (layoutCI op rd imm).extractLsb' 0 6 = op :=
  field_low (a := 10) _ op
theorem layoutCI_rd (op : BitVec 6) (rd : Reg) (imm : Word) (h : primed rd = true) : reg3 (layoutCI op rd imm) 6 = rd :=
  (congrArg (fun b : BitVec 3 => (b.setWidth 5).toFin) (field_mid (imm.extractLsb' 0 7) (sel3 rd) op)).trans
    (sel3_toFin rd h)
/-- The immediate of format CI comes back when it fits its field (R58). -/
theorem layoutCI_imm (op : BitVec 6) (rd : Reg) (imm : Word) (h : fitsSigned7 imm = true) :
    imm7 (layoutCI op rd imm) = imm :=
  (congrArg (BitVec.signExtend 32) (top_of_three (imm.extractLsb' 0 7) (sel3 rd) op)).trans (by
    simpa [fitsSigned7] using h)

theorem layoutCU_opcode (op : BitVec 6) (rd : Reg) (imm : Word) : (layoutCU op rd imm).extractLsb' 0 6 = op :=
  field_low (a := 10) _ op
theorem layoutCU_rd (op : BitVec 6) (rd : Reg) (imm : Word) (h : primed rd = true) : reg3 (layoutCU op rd imm) 6 = rd :=
  (congrArg (fun b : BitVec 3 => (b.setWidth 5).toFin) (field_mid (imm.extractLsb' 16 7) (sel3 rd) op)).trans
    (sel3_toFin rd h)
/-- The operand of format CU comes back when it lies in bits 22..16 (R58). -/
theorem layoutCU_imm (op : BitVec 6) (rd : Reg) (imm : Word) (h : fitsUpper7 imm = true) :
    upper7 (layoutCU op rd imm) = imm := by
  have h0 : imm.extractLsb' 0 16 = 0#16 ∧ imm.extractLsb' 23 9 = 0#9 := by simpa [fitsUpper7] using h
  have ht : (layoutCU op rd imm).extractLsb' 9 7 = imm.extractLsb' 16 7 :=
    top_of_three (imm.extractLsb' 16 7) (sel3 rd) op
  have hu : (imm.extractLsb' 16 7).setWidth 16 = imm.extractLsb' 16 16 := by
    ext i hi
    simp only [BitVec.getElem_setWidth, BitVec.getLsbD_extractLsb', BitVec.getElem_extractLsb']
    by_cases h7 : i < 7
    · simp [h7]
    · have hb := congrArg (·.getLsbD (i - 7)) h0.2
      simp only [BitVec.getLsbD_extractLsb', show i - 7 < 9 by omega, decide_true, Bool.true_and,
        show 23 + (i - 7) = 16 + i by omega] at hb
      rw [hb]
      simp [h7]
  rw [upper7, ht, hu, ← h0.1, halves]

theorem layoutCL_opcode (op : BitVec 6) (rd rs1 : Reg) (imm : Word) : (layoutCL op rd rs1 imm).extractLsb' 0 6 = op :=
  field_low (a := 10) _ op
theorem layoutCL_rd (op : BitVec 6) (rd rs1 : Reg) (imm : Word) (h : primed rd = true) :
    reg3 (layoutCL op rd rs1 imm) 6 = rd :=
  (congrArg (fun b : BitVec 3 => (b.setWidth 5).toFin) (field_mid (imm.extractLsb' 0 4 ++ sel3 rs1) (sel3 rd) op)).trans
    (sel3_toFin rd h)
theorem layoutCL_rs1 (op : BitVec 6) (rd rs1 : Reg) (imm : Word) (h : primed rs1 = true) :
    reg3 (layoutCL op rd rs1 imm) 9 = rs1 :=
  (congrArg (fun b : BitVec 3 => (b.setWidth 5).toFin) (field_third (imm.extractLsb' 0 4) (sel3 rs1) (sel3 rd) op)).trans
    (sel3_toFin rs1 h)
/-- The immediate of format CL comes back when it fits its field (R58). -/
theorem layoutCL_imm (op : BitVec 6) (rd rs1 : Reg) (imm : Word) (h : fitsSigned4 imm = true) :
    imm4 (layoutCL op rd rs1 imm) = imm :=
  (congrArg (BitVec.signExtend 32) (top_of_four (imm.extractLsb' 0 4) (sel3 rs1) (sel3 rd) op)).trans (by
    simpa [fitsSigned4] using h)

theorem layoutCS_opcode (op : BitVec 6) (rs1 rs2 : Reg) (imm : Word) : (layoutCS op rs1 rs2 imm).extractLsb' 0 6 = op :=
  field_low (a := 10) _ op
theorem layoutCS_rs1 (op : BitVec 6) (rs1 rs2 : Reg) (imm : Word) (h : primed rs1 = true) :
    reg3 (layoutCS op rs1 rs2 imm) 6 = rs1 :=
  (congrArg (fun b : BitVec 3 => (b.setWidth 5).toFin) (field_mid (imm.extractLsb' 0 4 ++ sel3 rs2) (sel3 rs1) op)).trans
    (sel3_toFin rs1 h)
theorem layoutCS_rs2 (op : BitVec 6) (rs1 rs2 : Reg) (imm : Word) (h : primed rs2 = true) :
    reg3 (layoutCS op rs1 rs2 imm) 9 = rs2 :=
  (congrArg (fun b : BitVec 3 => (b.setWidth 5).toFin) (field_third (imm.extractLsb' 0 4) (sel3 rs2) (sel3 rs1) op)).trans
    (sel3_toFin rs2 h)
/-- The immediate of format CS comes back when it fits its field (R58). -/
theorem layoutCS_imm (op : BitVec 6) (rs1 rs2 : Reg) (imm : Word) (h : fitsSigned4 imm = true) :
    imm4 (layoutCS op rs1 rs2 imm) = imm :=
  (congrArg (BitVec.signExtend 32) (top_of_four (imm.extractLsb' 0 4) (sel3 rs2) (sel3 rs1) op)).trans (by
    simpa [fitsSigned4] using h)

theorem layoutCSys_opcode (op : BitVec 6) (n : Word) : (layoutCSys op n).extractLsb' 0 6 = op :=
  field_low (a := 10) _ op
/-- The syscall number of C.CALL comes back when it has 7 bits (R58). -/
theorem layoutCSys_number (op : BitVec 6) (n : Word) (h : fitsNumber7 n = true) : number7 (layoutCSys op n) = n :=
  (congrArg (BitVec.setWidth 32) (top_of_three (n.extractLsb' 0 7) (0#3) op)).trans
    (setWidth_low n 7 (by decide) (by simpa [fitsNumber7] using h))

end Sys2Proof
end

