-- ==== Sys2Proof/Laws/Memory.lean ====
section
/-! SUPPORT. Memory: a read after a write, and every write keeps the canonical form and the bound on addresses. -/

namespace Sys2Proof.Machine

theorem Memory.wfFrom_cons {lo a : Nat} {b : Byte} {m : Memory} :
    Memory.wfFrom lo ((a, b) :: m) = true ↔ lo ≤ a ∧ b ≠ unlisted ∧ Memory.wfFrom (a + 1) m = true := by
  simp [Memory.wfFrom, and_assoc]

theorem Memory.wfFrom_mono {lo lo' : Nat} {m : Memory} (h : lo ≤ lo') (hm : Memory.wfFrom lo' m = true) :
    Memory.wfFrom lo m = true := by
  cases m with
  | nil => rfl
  | cons c m =>
    obtain ⟨a, b⟩ := c
    rw [Memory.wfFrom_cons] at hm ⊢
    exact ⟨h.trans hm.1, hm.2⟩

/-- Below the first listed address every byte is unlisted. -/
theorem Memory.read_below {lo a : Nat} {m : Memory} (hm : Memory.wfFrom lo m = true) (h : a < lo) : m.read a = unlisted := by
  induction m generalizing lo with
  | nil => rfl
  | cons c m ih =>
    obtain ⟨k, v⟩ := c
    rw [Memory.wfFrom_cons] at hm
    have hk : a ≠ k := by omega
    simp [Memory.read, hk, ih hm.2.2 (by omega : a < k + 1)]

theorem Memory.read_write_from {lo : Nat} {m : Memory} (hm : Memory.wfFrom lo m = true) (a q : Nat) (b : Byte) :
    (m.write a b).read q = if q = a then b else m.read q := by
  induction m generalizing lo with
  | nil => by_cases hb : b = unlisted <;> simp [Memory.write, Memory.read, hb]
  | cons c m ih =>
    obtain ⟨k, v⟩ := c
    rw [Memory.wfFrom_cons] at hm
    by_cases hlt : a < k
    · have hu : Memory.read m a = unlisted := Memory.read_below hm.2.2 (by omega)
      by_cases hb : b = unlisted
      · by_cases hq : q = a
        · subst hq; simp [Memory.write, Memory.read, hlt, hb, hu, Nat.ne_of_lt hlt]
        · simp [Memory.write, Memory.read, hlt, hb, hq]
      · simp [Memory.write, Memory.read, hlt, hb]
    · by_cases heq : a = k
      · subst heq
        by_cases hb : b = unlisted
        · by_cases hq : q = a
          · subst hq; simp [Memory.write, hb, Memory.read_below hm.2.2 (Nat.lt_succ_self q)]
          · simp [Memory.write, Memory.read, hb, hq]
        · by_cases hq : q = a <;> simp [Memory.write, Memory.read, hb, hq]
      · by_cases hq : q = k
        · have : ¬ k = a := fun h => heq h.symm
          simp [Memory.write, Memory.read, hlt, heq, hq, this]
        · simp [Memory.write, Memory.read, hlt, heq, hq, ih hm.2.2]

theorem Memory.wfFrom_write {lo : Nat} {m : Memory} (hm : Memory.wfFrom lo m = true) (a : Nat) (h : lo ≤ a) (b : Byte) :
    Memory.wfFrom lo (m.write a b) = true := by
  induction m generalizing lo with
  | nil => by_cases hb : b = unlisted <;> simp [Memory.write, Memory.wfFrom, hb, h]
  | cons c m ih =>
    obtain ⟨k, v⟩ := c
    have hm' := Memory.wfFrom_cons.mp hm
    by_cases hlt : a < k
    · by_cases hb : b = unlisted
      · simpa [Memory.write, hlt, hb] using hm
      · simp only [Memory.write, hlt, hb, if_true, if_false]
        exact Memory.wfFrom_cons.mpr ⟨h, hb, Memory.wfFrom_cons.mpr ⟨hlt, hm'.2⟩⟩
    · by_cases heq : a = k
      · subst heq
        by_cases hb : b = unlisted
        · simp only [Memory.write, hlt, hb, if_true, if_false]
          exact Memory.wfFrom_mono (by omega) hm'.2.2
        · simp only [Memory.write, hlt, hb, if_true, if_false]
          exact Memory.wfFrom_cons.mpr ⟨h, hb, hm'.2.2⟩
      · simp only [Memory.write, hlt, heq, if_false]
        exact Memory.wfFrom_cons.mpr ⟨hm'.1, hm'.2.1, ih hm'.2.2 (by omega)⟩

/-! ### The laws of one byte -/

/-- A read after a write: the byte written, and every other byte as before. -/
theorem Memory.read_write {m : Memory} (hm : m.wf = true) (a q : Nat) (b : Byte) :
    (m.write a b).read q = if q = a then b else m.read q :=
  Memory.read_write_from hm a q b

/-- A write keeps the canonical form. -/
theorem Memory.wf_write {m : Memory} (hm : m.wf = true) (a : Nat) (b : Byte) : (m.write a b).wf = true :=
  Memory.wfFrom_write hm a (Nat.zero_le a) b

/-- A write below the bound keeps every listed address below it. -/
theorem Memory.below_write {n : Nat} {m : Memory} (hm : m.below n = true) {a : Nat} (h : a < n) (b : Byte) :
    (m.write a b).below n = true := by
  induction m with
  | nil => by_cases hb : b = unlisted <;> simp [Memory.write, Memory.below, hb, h]
  | cons c m ih =>
    obtain ⟨k, v⟩ := c
    have hk : k < n ∧ Memory.below n m = true := by simpa [Memory.below] using hm
    have hm' := ih hk.2
    simp only [Memory.below] at hm' hk
    simp only [Memory.write]
    repeat' split
    all_goals simp [Memory.below, h, hk, hm']

/-! ### Blocks and words -/

/-- A block write keeps the canonical form. -/
theorem Memory.wf_writeBytes {m : Memory} (hm : m.wf = true) (a : Nat) (bs : List Byte) : (m.writeBytes a bs).wf = true := by
  induction bs generalizing m a with
  | nil => exact hm
  | cons b bs ih => exact ih (Memory.wf_write hm a b) (a + 1)

/-- A block write below the bound keeps every listed address below it. -/
theorem Memory.below_writeBytes {n : Nat} {m : Memory} (hm : m.below n = true) {a : Nat} (bs : List Byte)
    (h : a + bs.length ≤ n) : (m.writeBytes a bs).below n = true := by
  induction bs generalizing m a with
  | nil => exact hm
  | cons b bs ih =>
    simp only [List.length_cons] at h
    exact ih (Memory.below_write hm (by omega) b) (by omega)

/-- A block write: inside the block the bytes written, outside it every byte as before. -/
theorem Memory.read_writeBytes {m : Memory} (hm : m.wf = true) (a : Nat) (bs : List Byte) (q : Nat) :
    (m.writeBytes a bs).read q = if a ≤ q ∧ q < a + bs.length then bs.getD (q - a) 0 else m.read q := by
  induction bs generalizing m a with
  | nil => simp [Memory.writeBytes, show ¬(a ≤ q ∧ q < a) by omega]
  | cons b bs ih =>
    rw [Memory.writeBytes, ih (Memory.wf_write hm a b), Memory.read_write hm]
    by_cases hq : q = a
    · subst hq
      simp [show ¬(q + 1 ≤ q) by omega]
    · by_cases hin : a ≤ q ∧ q < a + (b :: bs).length
      · have hin' : a + 1 ≤ q ∧ q < a + 1 + bs.length := by
          simp only [List.length_cons] at hin; omega
        have hs : q - a = (q - (a + 1)) + 1 := by omega
        rw [if_pos hin', if_pos hin, hs, List.getD_cons_succ]
      · have hin' : ¬(a + 1 ≤ q ∧ q < a + 1 + bs.length) := by
          simp only [List.length_cons] at hin; omega
        rw [if_neg hin', if_neg hin, if_neg hq]

@[simp] theorem wordBytes_length (v : Word) : (wordBytes v).length = 4 := rfl

/-- A word write keeps the canonical form. -/
theorem Memory.wf_writeWord {m : Memory} (hm : m.wf = true) (a : Nat) (v : Word) : (m.writeWord a v).wf = true :=
  Memory.wf_writeBytes hm a _

/-- A word write inside the bound keeps every listed address below it. -/
theorem Memory.below_writeWord {n : Nat} {m : Memory} (hm : m.below n = true) {a : Nat} (v : Word) (h : a + 4 ≤ n) :
    (m.writeWord a v).below n = true :=
  Memory.below_writeBytes hm _ (by simpa using h)

/-- A word write leaves every byte outside its four as before. -/
theorem Memory.read_writeWord_outside {m : Memory} (hm : m.wf = true) (a : Nat) (v : Word) (q : Nat)
    (h : q < a ∨ a + 4 ≤ q) : (m.writeWord a v).read q = m.read q := by
  rw [Memory.writeWord, Memory.read_writeBytes hm, wordBytes_length, if_neg (by omega)]

/-- A word write puts bits `8i+7 .. 8i` at offset `i` (R31). -/
theorem Memory.read_writeWord_inside {m : Memory} (hm : m.wf = true) (a : Nat) (v : Word) (i : Nat) (h : i < 4) :
    (m.writeWord a v).read (a + i) = v.extractLsb' (8 * i) 8 := by
  rw [Memory.writeWord, Memory.read_writeBytes hm, wordBytes_length, if_pos (by omega), Nat.add_sub_cancel_left]
  match i, h with
  | 0, _ => rfl
  | 1, _ => rfl
  | 2, _ => rfl
  | 3, _ => rfl

end Sys2Proof.Machine
end

