-- ==== Sys2Proof/Laws/State.lean ====
section
/-! SUPPORT. The small lemmas of the state: one per field per update, so that no later proof unfolds a record update, and what
each way of ending a step does to each field. -/

namespace Sys2Proof.Machine

theorem State.pc_eq (s : State) : s.pc = s.reg 0 := rfl

/-! ### setReg -/

theorem State.reg_setReg (s : State) (r q : Reg) (v : Word) : (s.setReg r v).reg q = if q = r then v else s.reg q := by
  simp only [State.reg, State.setReg, Fin.getElem_fin, Vector.getElem_set, Fin.ext_iff, eq_comm]

@[simp] theorem State.reg_setReg_self (s : State) (r : Reg) (v : Word) : (s.setReg r v).reg r = v := by
  simp [State.reg_setReg]

@[simp] theorem State.setReg_status (s : State) (r : Reg) (v : Word) : (s.setReg r v).status = s.status := rfl
@[simp] theorem State.setReg_mem (s : State) (r : Reg) (v : Word) : (s.setReg r v).mem = s.mem := rfl
@[simp] theorem State.setReg_breaks (s : State) (r : Reg) (v : Word) : (s.setReg r v).breaks = s.breaks := rfl
@[simp] theorem State.setReg_hostCalls (s : State) (r : Reg) (v : Word) : (s.setReg r v).hostCalls = s.hostCalls := rfl
@[simp] theorem State.setReg_cfg (s : State) (r : Reg) (v : Word) : (s.setReg r v).cfg = s.cfg := rfl

/-! ### withStatus -/

@[simp] theorem State.withStatus_status (s : State) (st : Status) : (s.withStatus st).status = st := rfl
@[simp] theorem State.withStatus_regs (s : State) (st : Status) : (s.withStatus st).regs = s.regs := rfl
@[simp] theorem State.withStatus_reg (s : State) (st : Status) (r : Reg) : (s.withStatus st).reg r = s.reg r := rfl
@[simp] theorem State.withStatus_pc (s : State) (st : Status) : (s.withStatus st).pc = s.pc := rfl
@[simp] theorem State.withStatus_mem (s : State) (st : Status) : (s.withStatus st).mem = s.mem := rfl
@[simp] theorem State.withStatus_breaks (s : State) (st : Status) : (s.withStatus st).breaks = s.breaks := rfl
@[simp] theorem State.withStatus_hostCalls (s : State) (st : Status) : (s.withStatus st).hostCalls = s.hostCalls := rfl
@[simp] theorem State.withStatus_cfg (s : State) (st : Status) : (s.withStatus st).cfg = s.cfg := rfl

/-! ### withMem -/

@[simp] theorem State.withMem_mem (s : State) (m : Memory) : (s.withMem m).mem = m := rfl
@[simp] theorem State.withMem_regs (s : State) (m : Memory) : (s.withMem m).regs = s.regs := rfl
@[simp] theorem State.withMem_reg (s : State) (m : Memory) (r : Reg) : (s.withMem m).reg r = s.reg r := rfl
@[simp] theorem State.withMem_pc (s : State) (m : Memory) : (s.withMem m).pc = s.pc := rfl
@[simp] theorem State.withMem_status (s : State) (m : Memory) : (s.withMem m).status = s.status := rfl
@[simp] theorem State.withMem_breaks (s : State) (m : Memory) : (s.withMem m).breaks = s.breaks := rfl
@[simp] theorem State.withMem_hostCalls (s : State) (m : Memory) : (s.withMem m).hostCalls = s.hostCalls := rfl
@[simp] theorem State.withMem_cfg (s : State) (m : Memory) : (s.withMem m).cfg = s.cfg := rfl

/-! ### notify -/

@[simp] theorem State.notify_breaks (s : State) (a : Word) : (s.notify a).breaks = s.breaks ++ [a] := rfl
@[simp] theorem State.notify_regs (s : State) (a : Word) : (s.notify a).regs = s.regs := rfl
@[simp] theorem State.notify_reg (s : State) (a : Word) (r : Reg) : (s.notify a).reg r = s.reg r := rfl
@[simp] theorem State.notify_pc (s : State) (a : Word) : (s.notify a).pc = s.pc := rfl
@[simp] theorem State.notify_status (s : State) (a : Word) : (s.notify a).status = s.status := rfl
@[simp] theorem State.notify_mem (s : State) (a : Word) : (s.notify a).mem = s.mem := rfl
@[simp] theorem State.notify_hostCalls (s : State) (a : Word) : (s.notify a).hostCalls = s.hostCalls := rfl
@[simp] theorem State.notify_cfg (s : State) (a : Word) : (s.notify a).cfg = s.cfg := rfl

/-! ### request -/

@[simp] theorem State.request_hostCalls (s : State) (q : HostRequest) : (s.request q).hostCalls = s.hostCalls ++ [q] := rfl
@[simp] theorem State.request_regs (s : State) (q : HostRequest) : (s.request q).regs = s.regs := rfl
@[simp] theorem State.request_reg (s : State) (q : HostRequest) (r : Reg) : (s.request q).reg r = s.reg r := rfl
@[simp] theorem State.request_pc (s : State) (q : HostRequest) : (s.request q).pc = s.pc := rfl
@[simp] theorem State.request_status (s : State) (q : HostRequest) : (s.request q).status = s.status := rfl
@[simp] theorem State.request_mem (s : State) (q : HostRequest) : (s.request q).mem = s.mem := rfl
@[simp] theorem State.request_breaks (s : State) (q : HostRequest) : (s.request q).breaks = s.breaks := rfl
@[simp] theorem State.request_cfg (s : State) (q : HostRequest) : (s.request q).cfg = s.cfg := rfl

/-! ### pcMux (R198) -/

@[simp] theorem pcMux_jump (pc ilen v : Word) (taken : Option Word) : pcMux pc ilen (some v) taken = v := rfl
@[simp] theorem pcMux_taken (pc ilen imm : Word) : pcMux pc ilen none (some imm) = pc + imm := rfl
@[simp] theorem pcMux_next (pc ilen : Word) : pcMux pc ilen none none = pc + ilen := rfl

/-! ### commit, retire, advance, branch: registers -/

/-- What the end of a step leaves in each register (R198, R199). -/
theorem State.reg_commit (s : State) (ilen : Word) (dest : Option (Reg × Word)) (taken : Option Word) (q : Reg) :
    (s.commit ilen dest taken).reg q =
      match dest with
      | some (d, v) =>
        if q = 0 then pcMux s.pc ilen (if d = 0 then some v else none) taken else if q = d then v else s.reg q
      | none => if q = 0 then pcMux s.pc ilen none taken else s.reg q := by
  unfold State.commit
  split
  · split <;> simp_all [State.reg_setReg]
  · simp [State.reg_setReg]

/-- Every register after an instruction with destination `rd` has completed (R13, R199). -/
theorem State.reg_retire (s : State) (ilen : Word) (rd : Reg) (v : Word) (q : Reg) :
    (s.retire ilen rd v).reg q =
      if q = 0 then (if rd = 0 then v else s.pc + ilen) else if q = rd then v else s.reg q := by
  rw [State.retire, State.reg_commit]
  by_cases hq : q = 0 <;> by_cases hd : rd = 0 <;> simp [hq, hd]

/-- Every register after an instruction with no destination has completed. -/
theorem State.reg_advance (s : State) (ilen : Word) (q : Reg) :
    (s.advance ilen).reg q = if q = 0 then s.pc + ilen else s.reg q := by
  rw [State.advance, State.reg_commit]; rfl

/-- Every register after a branch (R140). -/
theorem State.reg_branch (s : State) (ilen : Word) (taken : Bool) (imm : Word) (q : Reg) :
    (s.branch ilen taken imm).reg q = if q = 0 then s.pc + (if taken then imm else ilen) else s.reg q := by
  rw [State.branch, State.reg_commit]
  cases taken <;> rfl

/-! ### commit, retire, advance, branch: everything else -/

@[simp] theorem State.commit_status (s : State) (n : Word) (d : Option (Reg × Word)) (t : Option Word) :
    (s.commit n d t).status = s.status := by
  unfold State.commit; split <;> (try split) <;> rfl
@[simp] theorem State.commit_mem (s : State) (n : Word) (d : Option (Reg × Word)) (t : Option Word) :
    (s.commit n d t).mem = s.mem := by
  unfold State.commit; split <;> (try split) <;> rfl
@[simp] theorem State.commit_breaks (s : State) (n : Word) (d : Option (Reg × Word)) (t : Option Word) :
    (s.commit n d t).breaks = s.breaks := by
  unfold State.commit; split <;> (try split) <;> rfl
@[simp] theorem State.commit_hostCalls (s : State) (n : Word) (d : Option (Reg × Word)) (t : Option Word) :
    (s.commit n d t).hostCalls = s.hostCalls := by
  unfold State.commit; split <;> (try split) <;> rfl
@[simp] theorem State.commit_cfg (s : State) (n : Word) (d : Option (Reg × Word)) (t : Option Word) :
    (s.commit n d t).cfg = s.cfg := by
  unfold State.commit; split <;> (try split) <;> rfl

@[simp] theorem State.retire_status (s : State) (n : Word) (d : Reg) (v : Word) : (s.retire n d v).status = s.status := by
  simp [State.retire]
@[simp] theorem State.retire_mem (s : State) (n : Word) (d : Reg) (v : Word) : (s.retire n d v).mem = s.mem := by
  simp [State.retire]
@[simp] theorem State.retire_breaks (s : State) (n : Word) (d : Reg) (v : Word) : (s.retire n d v).breaks = s.breaks := by
  simp [State.retire]
@[simp] theorem State.retire_hostCalls (s : State) (n : Word) (d : Reg) (v : Word) :
    (s.retire n d v).hostCalls = s.hostCalls := by
  simp [State.retire]
@[simp] theorem State.retire_cfg (s : State) (n : Word) (d : Reg) (v : Word) : (s.retire n d v).cfg = s.cfg := by
  simp [State.retire]

@[simp] theorem State.advance_status (s : State) (n : Word) : (s.advance n).status = s.status := by simp [State.advance]
@[simp] theorem State.advance_mem (s : State) (n : Word) : (s.advance n).mem = s.mem := by simp [State.advance]
@[simp] theorem State.advance_breaks (s : State) (n : Word) : (s.advance n).breaks = s.breaks := by simp [State.advance]
@[simp] theorem State.advance_hostCalls (s : State) (n : Word) : (s.advance n).hostCalls = s.hostCalls := by
  simp [State.advance]
@[simp] theorem State.advance_cfg (s : State) (n : Word) : (s.advance n).cfg = s.cfg := by simp [State.advance]

@[simp] theorem State.branch_status (s : State) (n : Word) (t : Bool) (imm : Word) : (s.branch n t imm).status = s.status := by
  simp [State.branch]
@[simp] theorem State.branch_mem (s : State) (n : Word) (t : Bool) (imm : Word) : (s.branch n t imm).mem = s.mem := by
  simp [State.branch]
@[simp] theorem State.branch_breaks (s : State) (n : Word) (t : Bool) (imm : Word) : (s.branch n t imm).breaks = s.breaks := by
  simp [State.branch]
@[simp] theorem State.branch_hostCalls (s : State) (n : Word) (t : Bool) (imm : Word) :
    (s.branch n t imm).hostCalls = s.hostCalls := by
  simp [State.branch]
@[simp] theorem State.branch_cfg (s : State) (n : Word) (t : Bool) (imm : Word) : (s.branch n t imm).cfg = s.cfg := by
  simp [State.branch]

/-! ### raise (R226) -/

@[simp] theorem State.raise_status (s : State) (f : FaultReport) : (s.raise f).status = .faulted f := rfl
@[simp] theorem State.raise_regs (s : State) (f : FaultReport) : (s.raise f).regs = s.regs := rfl
@[simp] theorem State.raise_reg (s : State) (f : FaultReport) (r : Reg) : (s.raise f).reg r = s.reg r := rfl
@[simp] theorem State.raise_pc (s : State) (f : FaultReport) : (s.raise f).pc = s.pc := rfl
@[simp] theorem State.raise_mem (s : State) (f : FaultReport) : (s.raise f).mem = s.mem := rfl
@[simp] theorem State.raise_breaks (s : State) (f : FaultReport) : (s.raise f).breaks = s.breaks := rfl
@[simp] theorem State.raise_hostCalls (s : State) (f : FaultReport) : (s.raise f).hostCalls = s.hostCalls := rfl
@[simp] theorem State.raise_cfg (s : State) (f : FaultReport) : (s.raise f).cfg = s.cfg := rfl

/-- Two states with the same registers and the same other fields are the same state. -/
theorem State.ext_reg (s t : State) (hr : ∀ r, s.reg r = t.reg r) (hs : s.status = t.status) (hm : s.mem = t.mem)
    (hb : s.breaks = t.breaks) (hh : s.hostCalls = t.hostCalls) (hc : s.cfg = t.cfg) : s = t := by
  cases s; cases t
  simp only at hs hm hb hh hc
  subst hs hm hb hh hc
  congr 1
  ext i hi : 1
  exact hr ⟨i, hi⟩

end Sys2Proof.Machine
end

