-- ==== Sys2Proof/Laws/Ops.lean ====
section
/-! SUPPORT. For each shared operation one lemma that says everything it can do, cited instead of unfolding it. -/

namespace Sys2Proof.Machine

/-! ### Accesses (R32 to R35) -/

/-- An access faults exactly when it is misaligned under `ALIGN_ENFORCE` or, that not being so, out of range. -/
theorem State.accessFault_some {s : State} {addr : Word} {n : Nat} {k : Access} {f : FaultReport} :
    s.accessFault addr n k = some f ↔
      (s.cfg.alignEnforce = true ∧ addr.toNat % n ≠ 0 ∧ f = .memory addr k .misaligned) ∨
      (¬(s.cfg.alignEnforce = true ∧ addr.toNat % n ≠ 0) ∧ s.cfg.memSize < addr.toNat + n ∧
        f = .memory addr k .outOfRange) := by
  unfold State.accessFault
  rw [eq_comm (a := f), eq_comm (a := f)]
  split
  · simp_all
  · split <;> simp_all

/-- An access that is aligned, or need not be, and in range does not fault. -/
theorem State.accessFault_none {s : State} {addr : Word} {n : Nat} {k : Access} :
    s.accessFault addr n k = none ↔
      ¬(s.cfg.alignEnforce = true ∧ addr.toNat % n ≠ 0) ∧ addr.toNat + n ≤ s.cfg.memSize := by
  unfold State.accessFault
  split
  · simp_all
  · split <;> simp_all

theorem State.readHalf_ok {s : State} {addr : Word} {k : Access} {v : Half} :
    s.readHalf addr k = .ok v ↔ s.accessFault addr 2 k = none ∧ v = s.mem.readHalf addr.toNat := by
  unfold State.readHalf; rw [@eq_comm _ v]; split <;> simp_all

theorem State.readHalf_error {s : State} {addr : Word} {k : Access} {f : FaultReport} :
    s.readHalf addr k = .error f ↔ s.accessFault addr 2 k = some f := by
  unfold State.readHalf; split <;> simp_all

theorem State.loadWord_ok {s : State} {addr v : Word} :
    s.loadWord addr = .ok v ↔ s.accessFault addr 4 .load = none ∧ v = s.mem.readWord addr.toNat := by
  unfold State.loadWord; rw [@eq_comm _ v]; split <;> simp_all

theorem State.loadWord_error {s : State} {addr : Word} {f : FaultReport} :
    s.loadWord addr = .error f ↔ s.accessFault addr 4 .load = some f := by
  unfold State.loadWord; split <;> simp_all

theorem State.storeWord_ok {s t : State} {addr v : Word} :
    s.storeWord addr v = .ok t ↔
      s.accessFault addr 4 .store = none ∧ t = s.withMem (s.mem.writeWord addr.toNat v) := by
  unfold State.storeWord; rw [@eq_comm _ t]; split <;> simp_all

theorem State.storeWord_error {s : State} {addr v : Word} {f : FaultReport} :
    s.storeWord addr v = .error f ↔ s.accessFault addr 4 .store = some f := by
  unfold State.storeWord; split <;> simp_all

/-! ### Load and store forms (R160) -/

/-- A load form raises the access's fault, or completes with the word read. -/
theorem State.opLoad_cases (s : State) (ilen : Word) (rd base : Reg) (imm : Word) :
    (∃ f, s.accessFault (s.ea base imm) 4 .load = some f ∧ s.opLoad ilen rd base imm = s.raise f) ∨
    (s.accessFault (s.ea base imm) 4 .load = none ∧
      s.opLoad ilen rd base imm = s.retire ilen rd (s.mem.readWord (s.ea base imm).toNat)) := by
  unfold State.opLoad State.loadWord
  cases h : s.accessFault (s.ea base imm) 4 .load <;> simp

/-- A store form raises the access's fault, or writes the word and completes. -/
theorem State.opStore_cases (s : State) (ilen : Word) (src base : Reg) (imm : Word) :
    (∃ f, s.accessFault (s.ea base imm) 4 .store = some f ∧ s.opStore ilen src base imm = s.raise f) ∨
    (s.accessFault (s.ea base imm) 4 .store = none ∧
      s.opStore ilen src base imm =
        (s.withMem (s.mem.writeWord (s.ea base imm).toNat (s.reg src))).advance ilen) := by
  unfold State.opStore State.storeWord
  cases h : s.accessFault (s.ea base imm) 4 .store <;> simp

/-! ### Syscalls (R171 to R175) -/

/-- A syscall raises SyscallFault, exits, raises the buffer's MemoryFault, or completes with the host's answer. -/
theorem State.syscall_cases (s : State) (ilen n : Word) :
    (5 < n.toNat ∧ s.syscall ilen n = s.raise (.syscall s.pc n)) ∨
    (n = 0 ∧ s.syscall ilen n = s.withStatus (.exited (s.reg 4))) ∨
    (n.toNat ≤ 5 ∧ n ≠ 0 ∧ ∃ f, s.bufferFault n = some f ∧ s.syscall ilen n = s.raise f) ∨
    (n.toNat ≤ 5 ∧ n ≠ 0 ∧ s.bufferFault n = none ∧ s.syscall ilen n = s.completeCall ilen n) := by
  unfold State.syscall
  by_cases h5 : 5 < n.toNat
  · exact .inl ⟨h5, if_pos h5⟩
  · by_cases h0 : n = 0
    · exact .inr (.inl ⟨h0, by simp [h0]⟩)
    · simp only [h5, h0, if_false]
      cases hb : s.bufferFault n with
      | some f => exact .inr (.inr (.inl ⟨by omega, h0, f, rfl, rfl⟩))
      | none => exact .inr (.inr (.inr ⟨by omega, h0, rfl, rfl⟩))

/-- The buffer check raises only a MemoryFault of access kind syscall at the buffer's pointer (R173). -/
theorem State.bufferFault_some {s : State} {n : Word} {f : FaultReport} :
    s.bufferFault n = some f ↔
      ∃ p l, s.syscallBuffer n = some (p, l) ∧ l ≠ 0 ∧ s.cfg.memSize < p.toNat + l.toNat ∧
        f = .memory p .syscall .outOfRange := by
  unfold State.bufferFault
  split
  · rename_i p l h
    rw [h]
    constructor
    · intro hf
      split at hf
      · rename_i hc
        exact ⟨p, l, rfl, hc.1, hc.2, (Option.some.inj hf).symm⟩
      · cases hf
    · rintro ⟨p', l', hpl, hl, hr, rfl⟩
      cases hpl
      exact if_pos ⟨hl, hr⟩
  · rename_i h
    simp [h]

theorem hostBytes_length (k n : Nat) : (hostBytes k n).length = n := by simp [hostBytes]

/-- Memory after the host's answer keeps the canonical form. -/
theorem State.wf_hostMem {s : State} (h : s.mem.wf = true) (n : Word) : (s.hostMem n).wf = true := by
  unfold State.hostMem
  split
  · exact Memory.wf_writeBytes h _ _
  · exact h

/-- A block of no bytes, or one inside the bound, keeps every listed address below the bound. -/
theorem Memory.below_writeBytes_of {n a : Nat} {m : Memory} (hm : m.below n = true) (bs : List Byte)
    (h : bs.length = 0 ∨ a + bs.length ≤ n) : (m.writeBytes a bs).below n = true := by
  rcases h with h | h
  · rw [List.length_eq_zero_iff.mp h]; exact hm
  · exact Memory.below_writeBytes hm bs h

/-- After the buffer check the host's answer stays inside Memory. -/
theorem State.below_hostMem {s : State} (h : s.mem.below s.cfg.memSize = true) {n : Word} (hb : s.bufferFault n = none) :
    (s.hostMem n).below s.cfg.memSize = true := by
  unfold State.hostMem
  split
  · rename_i h1
    refine Memory.below_writeBytes_of h _ ?_
    rw [hostBytes_length]
    by_contra hc
    rw [not_or] at hc
    have hl : s.reg 6 ≠ 0 := fun h0 => hc.1 (by rw [h0]; rfl)
    have : s.bufferFault n = some (.memory (s.reg 5) .syscall .outOfRange) :=
      State.bufferFault_some.mpr ⟨s.reg 5, s.reg 6, by simp [State.syscallBuffer, h1], hl, by omega, rfl⟩
    simp [this] at hb
  · exact h

/-- Every register after a completed syscall: the result in slot 3, the next program counter in slot 0 (R175). -/
theorem State.reg_completeCall (s : State) (ilen n : Word) (q : Reg) :
    (s.completeCall ilen n).reg q =
      if q = 0 then s.pc + ilen else if q = 3 then s.hostResult n else s.reg q := by
  simp [State.completeCall, State.reg_retire]

@[simp] theorem State.completeCall_status (s : State) (ilen n : Word) : (s.completeCall ilen n).status = s.status := by
  simp [State.completeCall]
@[simp] theorem State.completeCall_mem (s : State) (ilen n : Word) : (s.completeCall ilen n).mem = s.hostMem n := by
  simp [State.completeCall]
@[simp] theorem State.completeCall_breaks (s : State) (ilen n : Word) : (s.completeCall ilen n).breaks = s.breaks := by
  simp [State.completeCall]
@[simp] theorem State.completeCall_hostCalls (s : State) (ilen n : Word) :
    (s.completeCall ilen n).hostCalls = s.hostCalls ++ [s.hostRequest n] := by
  simp [State.completeCall]
@[simp] theorem State.completeCall_cfg (s : State) (ilen n : Word) : (s.completeCall ilen n).cfg = s.cfg := by
  simp [State.completeCall]

/-! ### Breakpoints (R177) -/

/-- The three effects of a breakpoint, one per `BREAK_MODE`. -/
theorem State.breakpoint_cases (s : State) (ilen : Word) :
    (s.cfg.breakMode = .disabled ∧ s.breakpoint ilen = s.advance ilen) ∨
    (s.cfg.breakMode = .notify ∧ s.breakpoint ilen = (s.notify s.pc).advance ilen) ∨
    (s.cfg.breakMode = .halt ∧
      s.breakpoint ilen = ((s.notify s.pc).advance ilen).withStatus (.breakHalted s.pc)) := by
  unfold State.breakpoint
  cases h : s.cfg.breakMode <;> simp

/-! ### Fetch (R192) -/

/-- Everything a fetch can do: the first half-word faults, a compressed instruction, the second half-word faults (it would
run past Memory, or the access itself faults), or a standard instruction. -/
theorem State.fetch_cases (s : State) :
    (∃ f, s.accessFault s.pc 2 .fetch = some f ∧ s.fetch = .error f) ∨
    (s.accessFault s.pc 2 .fetch = none ∧ (s.mem.readHalf s.pc.toNat).getLsbD 0 = true ∧
      s.fetch = .ok (.half (s.mem.readHalf s.pc.toNat))) ∨
    (s.accessFault s.pc 2 .fetch = none ∧ (s.mem.readHalf s.pc.toNat).getLsbD 0 = false ∧
      ((s.cfg.memSize < s.pc.toNat + 4 ∧ s.fetch = .error (.memory (s.pc + 2) .fetch .outOfRange)) ∨
       (s.pc.toNat + 4 ≤ s.cfg.memSize ∧
        ((∃ f, s.accessFault (s.pc + 2) 2 .fetch = some f ∧ s.fetch = .error f) ∨
         (s.accessFault (s.pc + 2) 2 .fetch = none ∧
          s.fetch = .ok (.word (s.mem.readHalf (s.pc + 2).toNat ++ s.mem.readHalf s.pc.toNat))))))) := by
  unfold State.fetch State.readHalf
  cases h1 : s.accessFault s.pc 2 .fetch with
  | some f => exact .inl ⟨f, rfl, rfl⟩
  | none =>
    right
    cases hb : (s.mem.readHalf s.pc.toNat).getLsbD 0 with
    | true => exact .inl ⟨rfl, rfl, by simp [hb]⟩
    | false =>
      refine .inr ⟨rfl, rfl, ?_⟩
      by_cases hm : s.cfg.memSize < s.pc.toNat + 4
      · exact .inl ⟨hm, by simp only [hb, hm, if_true, if_false, Bool.false_eq_true]⟩
      · refine .inr ⟨by omega, ?_⟩
        cases h2 : s.accessFault (s.pc + 2) 2 .fetch with
        | some f => exact .inl ⟨f, rfl, by simp only [hb, hm, if_false, Bool.false_eq_true]⟩
        | none => exact .inr ⟨rfl, by simp only [hb, hm, if_false, Bool.false_eq_true]⟩

/-! ### Reset -/

/-- The reset state is the reset event with the default configuration, entry 0, no image and registers 0 (logs 1 to 5). -/
theorem State.reset_eq_boot : State.reset = State.boot Config.default Boot.default := by decide

/-- The memory of the reset state has the canonical form. -/
theorem State.wf_reset_mem : State.reset.mem.wf = true := rfl

/-- Memory at reset has the canonical form whatever the loader supplies (R252). -/
theorem State.wf_boot_mem {c : Config} {b : Boot} (h : b.fits c = true) : (State.boot c b).mem.wf = true := by
  simp only [Boot.fits, Bool.and_eq_true] at h
  exact Memory.wf_writeBytes h.1.1 _ _

end Sys2Proof.Machine
end

