-- ==== Sys2Proof/Laws/PerInstr.lean ====
section
/-! SUPPORT. Statements about every instruction as syntax, one lemma per constructor. -/

namespace Sys2Proof.Laws.EncodedLength

/-- The encoding has the length of the instruction's format, its opcode field is the instruction's opcode, and the parity of
the opcode tells the length: even is 4 bytes, odd is 2 (spec/30_encoding.md R51, R52). -/
def Statement (i : Instr) : Prop :=
  (encode i).ilen = i.format.ilen ∧ (encode i).opcode = i.opcode ∧
    i.format.ilen = if i.opcode.getLsbD 0 then 2 else 4

theorem opcode_half (a : BitVec 10) (op : BitVec 6) : (InstBits.half (a ++ op)).opcode = op := by
  ext i hi
  rw [InstBits.opcode, BitVec.getElem_extractLsb', BitVec.getLsbD_append, Nat.zero_add, if_pos hi,
    BitVec.getLsbD_eq_getElem hi]

theorem opcode_word (a : BitVec 26) (op : BitVec 6) : (InstBits.word (a ++ op)).opcode = op := by
  ext i hi
  rw [InstBits.opcode, BitVec.getElem_extractLsb', BitVec.getLsbD_append, Nat.zero_add, if_pos hi,
    BitVec.getLsbD_eq_getElem hi]

theorem of_half (i : Instr) (a : BitVec 10) (op : BitVec 6) (he : encode i = .half (a ++ op)) (ho : i.opcode = op)
    (hf : i.format.ilen = 2) (hp : op.getLsbD 0 = true) : Statement i := by
  refine ⟨by rw [he, hf]; rfl, by rw [he, opcode_half, ho], ?_⟩
  rw [hf, ho, hp, if_pos rfl]

theorem of_word (i : Instr) (a : BitVec 26) (op : BitVec 6) (he : encode i = .word (a ++ op)) (ho : i.opcode = op)
    (hf : i.format.ilen = 4) (hp : op.getLsbD 0 = false) : Statement i := by
  refine ⟨by rw [he, hf]; rfl, by rw [he, opcode_word, ho], ?_⟩
  rw [hf, ho, hp, if_neg Bool.false_ne_true]

theorem cMv (rd rs2 : Reg) : Statement (.cMv rd rs2) := of_half _ _ _ rfl rfl rfl rfl
theorem add (rd rs1 rs2 : Reg) : Statement (.add rd rs1 rs2) := of_word _ _ _ rfl rfl rfl rfl
theorem sub (rd rs1 rs2 : Reg) : Statement (.sub rd rs1 rs2) := of_word _ _ _ rfl rfl rfl rfl
theorem and (rd rs1 rs2 : Reg) : Statement (.and rd rs1 rs2) := of_word _ _ _ rfl rfl rfl rfl
theorem or (rd rs1 rs2 : Reg) : Statement (.or rd rs1 rs2) := of_word _ _ _ rfl rfl rfl rfl
theorem xor (rd rs1 rs2 : Reg) : Statement (.xor rd rs1 rs2) := of_word _ _ _ rfl rfl rfl rfl
theorem sll (rd rs1 rs2 : Reg) : Statement (.sll rd rs1 rs2) := of_word _ _ _ rfl rfl rfl rfl
theorem srl (rd rs1 rs2 : Reg) : Statement (.srl rd rs1 rs2) := of_word _ _ _ rfl rfl rfl rfl
theorem sra (rd rs1 rs2 : Reg) : Statement (.sra rd rs1 rs2) := of_word _ _ _ rfl rfl rfl rfl
theorem addi (rd rs1 : Reg) (imm : Word) : Statement (.addi rd rs1 imm) := of_word _ _ _ rfl rfl rfl rfl
theorem subi (rd rs1 : Reg) (imm : Word) : Statement (.subi rd rs1 imm) := of_word _ _ _ rfl rfl rfl rfl
theorem andi (rd rs1 : Reg) (imm : Word) : Statement (.andi rd rs1 imm) := of_word _ _ _ rfl rfl rfl rfl
theorem ori (rd rs1 : Reg) (imm : Word) : Statement (.ori rd rs1 imm) := of_word _ _ _ rfl rfl rfl rfl
theorem xori (rd rs1 : Reg) (imm : Word) : Statement (.xori rd rs1 imm) := of_word _ _ _ rfl rfl rfl rfl
theorem slli (rd rs1 : Reg) (imm : Word) : Statement (.slli rd rs1 imm) := of_word _ _ _ rfl rfl rfl rfl
theorem srli (rd rs1 : Reg) (imm : Word) : Statement (.srli rd rs1 imm) := of_word _ _ _ rfl rfl rfl rfl
theorem srai (rd rs1 : Reg) (imm : Word) : Statement (.srai rd rs1 imm) := of_word _ _ _ rfl rfl rfl rfl
theorem cAdd (rd rs2 : Reg) : Statement (.cAdd rd rs2) := of_half _ _ _ rfl rfl rfl rfl
theorem cSub (rd rs2 : Reg) : Statement (.cSub rd rs2) := of_half _ _ _ rfl rfl rfl rfl
theorem cAnd (rd rs2 : Reg) : Statement (.cAnd rd rs2) := of_half _ _ _ rfl rfl rfl rfl
theorem cOr (rd rs2 : Reg) : Statement (.cOr rd rs2) := of_half _ _ _ rfl rfl rfl rfl
theorem cXor (rd rs2 : Reg) : Statement (.cXor rd rs2) := of_half _ _ _ rfl rfl rfl rfl
theorem cSll (rd rs2 : Reg) : Statement (.cSll rd rs2) := of_half _ _ _ rfl rfl rfl rfl
theorem cSrl (rd rs2 : Reg) : Statement (.cSrl rd rs2) := of_half _ _ _ rfl rfl rfl rfl
theorem cSra (rd rs2 : Reg) : Statement (.cSra rd rs2) := of_half _ _ _ rfl rfl rfl rfl
theorem cAddi (rd : Reg) (imm : Word) : Statement (.cAddi rd imm) := of_half _ _ _ rfl rfl rfl rfl
theorem cSubi (rd : Reg) (imm : Word) : Statement (.cSubi rd imm) := of_half _ _ _ rfl rfl rfl rfl
theorem cAndi (rd : Reg) (imm : Word) : Statement (.cAndi rd imm) := of_half _ _ _ rfl rfl rfl rfl
theorem cOri (rd : Reg) (imm : Word) : Statement (.cOri rd imm) := of_half _ _ _ rfl rfl rfl rfl
theorem cXori (rd : Reg) (imm : Word) : Statement (.cXori rd imm) := of_half _ _ _ rfl rfl rfl rfl
theorem cSlli (rd : Reg) (imm : Word) : Statement (.cSlli rd imm) := of_half _ _ _ rfl rfl rfl rfl
theorem cSrli (rd : Reg) (imm : Word) : Statement (.cSrli rd imm) := of_half _ _ _ rfl rfl rfl rfl
theorem cSrai (rd : Reg) (imm : Word) : Statement (.cSrai rd imm) := of_half _ _ _ rfl rfl rfl rfl
theorem li (rd : Reg) (imm : Word) : Statement (.li rd imm) := of_word _ _ _ rfl rfl rfl rfl
theorem cLi (rd : Reg) (imm : Word) : Statement (.cLi rd imm) := of_half _ _ _ rfl rfl rfl rfl
theorem lui (rd : Reg) (imm : Word) : Statement (.lui rd imm) := of_word _ _ _ rfl rfl rfl rfl
theorem cLui (rd : Reg) (imm : Word) : Statement (.cLui rd imm) := of_half _ _ _ rfl rfl rfl rfl
theorem load (rd rs1 : Reg) (imm : Word) : Statement (.load rd rs1 imm) := of_word _ _ _ rfl rfl rfl rfl
theorem cLoad (rd rs1 : Reg) (imm : Word) : Statement (.cLoad rd rs1 imm) := of_half _ _ _ rfl rfl rfl rfl
theorem store (rs1 rs2 : Reg) (imm : Word) : Statement (.store rs1 rs2 imm) := of_word _ _ _ rfl rfl rfl rfl
theorem cStore (rs1 rs2 : Reg) (imm : Word) : Statement (.cStore rs1 rs2 imm) := of_half _ _ _ rfl rfl rfl rfl
theorem bez (rs1 : Reg) (imm : Word) : Statement (.bez rs1 imm) := of_word _ _ _ rfl rfl rfl rfl
theorem bnz (rs1 : Reg) (imm : Word) : Statement (.bnz rs1 imm) := of_word _ _ _ rfl rfl rfl rfl
theorem beq (rs1 rs2 : Reg) (imm : Word) : Statement (.beq rs1 rs2 imm) := of_word _ _ _ rfl rfl rfl rfl
theorem bne (rs1 rs2 : Reg) (imm : Word) : Statement (.bne rs1 rs2 imm) := of_word _ _ _ rfl rfl rfl rfl
theorem blt (rs1 rs2 : Reg) (imm : Word) : Statement (.blt rs1 rs2 imm) := of_word _ _ _ rfl rfl rfl rfl
theorem bge (rs1 rs2 : Reg) (imm : Word) : Statement (.bge rs1 rs2 imm) := of_word _ _ _ rfl rfl rfl rfl
theorem bltu (rs1 rs2 : Reg) (imm : Word) : Statement (.bltu rs1 rs2 imm) := of_word _ _ _ rfl rfl rfl rfl
theorem bgeu (rs1 rs2 : Reg) (imm : Word) : Statement (.bgeu rs1 rs2 imm) := of_word _ _ _ rfl rfl rfl rfl
theorem cBez (rs1 : Reg) (imm : Word) : Statement (.cBez rs1 imm) := of_half _ _ _ rfl rfl rfl rfl
theorem cBnz (rs1 : Reg) (imm : Word) : Statement (.cBnz rs1 imm) := of_half _ _ _ rfl rfl rfl rfl
theorem call (n : Word) : Statement (.call n) := of_word _ _ _ rfl rfl rfl rfl
theorem cCall (n : Word) : Statement (.cCall n) := of_half _ _ _ rfl rfl rfl rfl
theorem brk : Statement (.brk) := of_word _ _ _ rfl rfl rfl rfl
theorem cBrk : Statement (.cBrk) := of_half _ _ _ rfl rfl rfl rfl

end Sys2Proof.Laws.EncodedLength
end

