-- ==== Sys2Proof/Tests/Slice0.lean ====
section
/-! SUPPORT. The model's own tests: ill-formed terms each check refuses; one word per instruction, written out from the spec's
encoding; single steps whose expected results are those of spec/95_test_vectors.md; and a witness for the hypotheses of every
statement that has some. -/

namespace Sys2Proof.Tests

open Sys2Proof.Machine Sys2Proof.Claims

/-! ### WellFormed: each check refuses an ill-formed term -/

theorem test_refused_primed_register : (Instr.cAddi 8 0).wellFormed = false := by decide
theorem test_refused_primed_base : (Instr.cLoad 7 8 0).wellFormed = false := by decide
theorem test_refused_signed16 : (Instr.addi 1 1 0x8000).wellFormed = false := by decide
theorem test_refused_signed7 : (Instr.cLi 1 64).wellFormed = false := by decide
theorem test_refused_signed4 : (Instr.cBez 1 8).wellFormed = false := by decide
theorem test_refused_upper16 : (Instr.lui 1 0x10001).wellFormed = false := by decide
theorem test_refused_upper7_high : (Instr.cLui 1 0x00800000).wellFormed = false := by decide
theorem test_refused_upper7_low : (Instr.cLui 1 1).wellFormed = false := by decide
theorem test_refused_number16 : (Instr.call 0x10000).wellFormed = false := by decide
theorem test_refused_number7 : (Instr.cCall 128).wellFormed = false := by decide

/-! ### Decoding: one word per instruction, the fields laid out as R54, R55 and R59 say -/

theorem test_decode_add : decodeTableWord 32 0b00000000000_00101_00100_00011_000010 = some (.add 3 4 5) := by decide
theorem test_decode_sub : decodeTableWord 32 0b00000000000_00101_00100_00011_000100 = some (.sub 3 4 5) := by decide
theorem test_decode_and : decodeTableWord 32 0b00000000000_00101_00100_00011_000110 = some (.and 3 4 5) := by decide
theorem test_decode_or : decodeTableWord 32 0b00000000000_00101_00100_00011_001000 = some (.or 3 4 5) := by decide
theorem test_decode_xor : decodeTableWord 32 0b00000000000_00101_00100_00011_001010 = some (.xor 3 4 5) := by decide
theorem test_decode_sll : decodeTableWord 32 0b00000000000_00101_00100_00011_001100 = some (.sll 3 4 5) := by decide
theorem test_decode_srl : decodeTableWord 32 0b00000000000_00101_00100_00011_001110 = some (.srl 3 4 5) := by decide
theorem test_decode_sra : decodeTableWord 32 0b00000000000_00101_00100_00011_010000 = some (.sra 3 4 5) := by decide
theorem test_decode_addi : decodeTableWord 32 0b1111111111111110_00100_00011_010010 = some (.addi 3 4 0xfffffffe) := by decide
theorem test_decode_subi : decodeTableWord 32 0b1111111111111110_00100_00011_010100 = some (.subi 3 4 0xfffffffe) := by decide
theorem test_decode_andi : decodeTableWord 32 0b1111111111111110_00100_00011_010110 = some (.andi 3 4 0xfffffffe) := by decide
theorem test_decode_ori : decodeTableWord 32 0b1111111111111110_00100_00011_011000 = some (.ori 3 4 0xfffffffe) := by decide
theorem test_decode_xori : decodeTableWord 32 0b1111111111111110_00100_00011_011010 = some (.xori 3 4 0xfffffffe) := by decide
theorem test_decode_slli : decodeTableWord 32 0b1111111111111110_00100_00011_011100 = some (.slli 3 4 0xfffffffe) := by decide
theorem test_decode_srli : decodeTableWord 32 0b1111111111111110_00100_00011_011110 = some (.srli 3 4 0xfffffffe) := by decide
theorem test_decode_srai : decodeTableWord 32 0b1111111111111110_00100_00011_100000 = some (.srai 3 4 0xfffffffe) := by decide
theorem test_decode_cMv : decodeTableWord 16 0b10001_11110_000001 = some (.cMv 30 17) := by decide
theorem test_decode_cAdd : decodeTableWord 16 0b10001_11110_000011 = some (.cAdd 30 17) := by decide
theorem test_decode_cSub : decodeTableWord 16 0b10001_11110_000101 = some (.cSub 30 17) := by decide
theorem test_decode_cAnd : decodeTableWord 16 0b10001_11110_000111 = some (.cAnd 30 17) := by decide
theorem test_decode_cOr : decodeTableWord 16 0b10001_11110_001001 = some (.cOr 30 17) := by decide
theorem test_decode_cXor : decodeTableWord 16 0b10001_11110_001011 = some (.cXor 30 17) := by decide
theorem test_decode_cSll : decodeTableWord 16 0b10001_11110_001101 = some (.cSll 30 17) := by decide
theorem test_decode_cSrl : decodeTableWord 16 0b10001_11110_001111 = some (.cSrl 30 17) := by decide
theorem test_decode_cSra : decodeTableWord 16 0b10001_11110_010001 = some (.cSra 30 17) := by decide
theorem test_decode_cAddi : decodeTableWord 16 0b1000000_101_010011 = some (.cAddi 5 0xffffffc0) := by decide
theorem test_decode_cSubi : decodeTableWord 16 0b1000000_101_010101 = some (.cSubi 5 0xffffffc0) := by decide
theorem test_decode_cAndi : decodeTableWord 16 0b1000000_101_010111 = some (.cAndi 5 0xffffffc0) := by decide
theorem test_decode_cOri : decodeTableWord 16 0b1000000_101_011001 = some (.cOri 5 0xffffffc0) := by decide
theorem test_decode_cXori : decodeTableWord 16 0b1000000_101_011011 = some (.cXori 5 0xffffffc0) := by decide
theorem test_decode_cSlli : decodeTableWord 16 0b1000000_101_011101 = some (.cSlli 5 0xffffffc0) := by decide
theorem test_decode_cSrli : decodeTableWord 16 0b1000000_101_011111 = some (.cSrli 5 0xffffffc0) := by decide
theorem test_decode_cSrai : decodeTableWord 16 0b1000000_101_100001 = some (.cSrai 5 0xffffffc0) := by decide
theorem test_decode_cLi : decodeTableWord 16 0b1000000_101_100011 = some (.cLi 5 0xffffffc0) := by decide
theorem test_decode_li : decodeTableWord 32 0b1000000000000000_00000_10011_100010 = some (.li 19 0xffff8000) := by decide
theorem test_decode_lui : decodeTableWord 32 0b1111111111111111_00000_00011_100100 = some (.lui 3 0xffff0000) := by decide
theorem test_decode_cLui : decodeTableWord 16 0b1111111_011_100101 = some (.cLui 3 0x007f0000) := by decide
theorem test_decode_load : decodeTableWord 32 0b0000000000000100_00001_00011_100110 = some (.load 3 1 4) := by decide
theorem test_decode_cLoad : decodeTableWord 16 0b0100_001_011_100111 = some (.cLoad 3 1 4) := by decide
theorem test_decode_store : decodeTableWord 32 0b1111111111111100_00001_00100_101000 = some (.store 4 1 0xfffffffc) := by decide
theorem test_decode_cStore : decodeTableWord 16 0b1100_001_100_101001 = some (.cStore 4 1 0xfffffffc) := by decide
theorem test_decode_bez : decodeTableWord 32 0b0000000000010000_00000_00100_101010 = some (.bez 4 16) := by decide
theorem test_decode_bnz : decodeTableWord 32 0b1111111111111000_00000_00100_101100 = some (.bnz 4 0xfffffff8) := by decide
theorem test_decode_beq : decodeTableWord 32 0b0000000000010000_00101_00100_101110 = some (.beq 4 5 16) := by decide
theorem test_decode_bne : decodeTableWord 32 0b0000000000010000_00101_00100_110000 = some (.bne 4 5 16) := by decide
theorem test_decode_blt : decodeTableWord 32 0b0000000000010000_00101_00100_110010 = some (.blt 4 5 16) := by decide
theorem test_decode_bge : decodeTableWord 32 0b0000000000010000_00101_00100_110100 = some (.bge 4 5 16) := by decide
theorem test_decode_bltu : decodeTableWord 32 0b0000000000010000_00101_00100_110110 = some (.bltu 4 5 16) := by decide
theorem test_decode_bgeu : decodeTableWord 32 0b0000000000010000_00101_00100_111000 = some (.bgeu 4 5 16) := by decide
theorem test_decode_cBez : decodeTableWord 16 0b0110_000_100_101011 = some (.cBez 4 6) := by decide
theorem test_decode_cBnz : decodeTableWord 16 0b1100_000_100_101101 = some (.cBnz 4 0xfffffffc) := by decide
theorem test_decode_call : decodeTableWord 32 0b1111111111111111_0000000000_111010 = some (.call 0xffff) := by decide
theorem test_decode_cCall : decodeTableWord 16 0b1111111_000_111011 = some (.cCall 127) := by decide
theorem test_decode_brk : decodeTableWord 32 0xdeadbe3c = some .brk := by decide
theorem test_decode_cBrk : decodeTableWord 16 0b0000000000_111101 = some .cBrk := by decide

/-- R60: an unassigned opcode of either parity is refused. -/
theorem test_decode_refuses_unassigned : decodeTableWord 32 0 = none ∧ decodeTableWord 32 0xfffffffe = none ∧
    decodeTableWord 16 0xffff = none ∧ decodeTableWord 16 0xffef = none := by decide

/-- The bytes of spec/95_test_vectors.md section 2.1, compressed and standard in a row. -/
theorem test_decode_bytes_in_a_row :
    decodeBytes [0xc3, 0x20, 0xc2, 0x20, 0x05, 0x00] = .ok (.cAdd 3 4, [0xc2, 0x20, 0x05, 0x00]) ∧
    decodeBytes [0xc2, 0x20, 0x05, 0x00, 0xc3] = .ok (.add 3 4 5, [0xc3]) := by decide

/-! ### Single steps. Expected values: spec/95_test_vectors.md sections 1 and 2. -/

/-- A running state at `0x100` with the listed registers. -/
def start (l : List (Reg × Word)) : State := l.foldl (fun s p => s.setReg p.1 p.2) (State.reset.setReg 0 0x100)

/-- The state with another configuration. -/
def under (s : State) (n : Nat) (enforce : Bool) (m : BreakMode) : State :=
  { s with cfg := { memSize := n, alignEnforce := enforce, breakMode := m } }

/-- One step on the instruction with these bits. -/
def ran (s : State) (nbits w : Nat) : Outcome := step (s.withFetchWord nbits w)

/-- A field of the next state. -/
def after {α : Type} (f : State → α) : Outcome → Option α
  | .next t => some (f t)
  | .fault _ => none
  | .refused _ => none

/-- Register `r` of the next state. -/
def regAfter (r : Reg) (o : Outcome) : Option Word := after (·.reg r) o

/-- The trap state of the next state. -/
def statusAfter (o : Outcome) : Option Status := after (·.status) o

theorem test_add_wraps : regAfter 3 (ran (start [(4, 0xffffffff), (5, 1)]) 32 0x000520c2) = some 0 := by decide
theorem test_add_to_pc_jumps : regAfter 0 (ran (start [(5, 0x20)]) 32 0x00050002) = some 0x120 := by decide
theorem test_sub_order : regAfter 3 (ran (start [(4, 0), (5, 1)]) 32 0x000520c4) = some 0xffffffff := by decide
theorem test_and : regAfter 3 (ran (start [(4, 0xff00ff00), (5, 0x0ff00ff0)]) 32 0x000520c6) = some 0x0f000f00 := by decide
theorem test_or : regAfter 3 (ran (start [(4, 0xff00ff00), (5, 0x0ff00ff0)]) 32 0x000520c8) = some 0xfff0fff0 := by decide
theorem test_xor : regAfter 3 (ran (start [(4, 0xff00ff00), (5, 0x0ff00ff0)]) 32 0x000520ca) = some 0xf0f0f0f0 := by decide
theorem test_sll_masks_amount : regAfter 3 (ran (start [(4, 0x12345678), (5, 0x24)]) 32 0x000520cc) = some 0x23456780 := by decide
theorem test_srl_zero_fill : regAfter 3 (ran (start [(4, 0x80000000), (5, 0xff)]) 32 0x000520ce) = some 1 := by decide
theorem test_sra_sign_fill : regAfter 3 (ran (start [(4, 0x80000000), (5, 1)]) 32 0x000520d0) = some 0xc0000000 := by decide
theorem test_addi_negative : regAfter 3 (ran (start [(4, 0)]) 32 0xffff20d2) = some 0xffffffff := by decide
theorem test_addi_reads_own_address : regAfter 2 (ran (start []) 32 0x00080092) = some 0x108 := by decide
theorem test_subi_most_negative : regAfter 3 (ran (start [(4, 0)]) 32 0x800020d4) = some 0x00008000 := by decide
theorem test_andi_sign_extends : regAfter 3 (ran (start [(4, 0x12345678)]) 32 0xff0020d6) = some 0x12345600 := by decide
theorem test_ori_sign_extends : regAfter 3 (ran (start [(4, 0x00000012)]) 32 0xff0020d8) = some 0xffffff12 := by decide
theorem test_xori_complements : regAfter 3 (ran (start [(4, 0x0000ffff)]) 32 0xffff20da) = some 0xffff0000 := by decide
theorem test_slli_masks_amount : regAfter 3 (ran (start [(4, 0x12345678)]) 32 0x002120dc) = some 0x2468acf0 := by decide
theorem test_srli : regAfter 3 (ran (start [(4, 0x80000000)]) 32 0x000120de) = some 0x40000000 := by decide
theorem test_srai_by_31 : regAfter 3 (ran (start [(4, 0x80000000)]) 32 0xffff20e0) = some 0xffffffff := by decide
theorem test_cMv : regAfter 3 (ran (start [(4, 0xdeadbeef)]) 16 0x20c1) = some 0xdeadbeef := by decide
theorem test_cMv_to_pc_returns : regAfter 0 (ran (start [(2, 0x200a)]) 16 0x1001) = some 0x200a := by decide
theorem test_cAdd : regAfter 3 (ran (start [(3, 0xffffffff), (4, 1)]) 16 0x20c3) = some 0 := by decide
theorem test_cSub_order : regAfter 3 (ran (start [(3, 5), (4, 7)]) 16 0x20c5) = some 0xfffffffe := by decide
theorem test_cAnd : regAfter 3 (ran (start [(3, 0xff00ff00), (4, 0x0ff00ff0)]) 16 0x20c7) = some 0x0f000f00 := by decide
theorem test_cOr : regAfter 3 (ran (start [(3, 0xff00ff00), (4, 0x0ff00ff0)]) 16 0x20c9) = some 0xfff0fff0 := by decide
theorem test_cXor : regAfter 3 (ran (start [(3, 0xff00ff00), (4, 0x0ff00ff0)]) 16 0x20cb) = some 0xf0f0f0f0 := by decide
theorem test_cSll : regAfter 3 (ran (start [(3, 1), (4, 31)]) 16 0x20cd) = some 0x80000000 := by decide
theorem test_cSrl : regAfter 3 (ran (start [(3, 0x80000000), (4, 1)]) 16 0x20cf) = some 0x40000000 := by decide
theorem test_cSra : regAfter 3 (ran (start [(3, 0x80000000), (4, 1)]) 16 0x20d1) = some 0xc0000000 := by decide
theorem test_cAddi_negative : regAfter 3 (ran (start [(3, 0)]) 16 0xfed3) = some 0xffffffff := by decide
theorem test_cAddi_to_pc_jumps : regAfter 0 (ran (start []) 16 0x0c13) = some 0x106 := by decide
theorem test_cSubi : regAfter 3 (ran (start [(3, 10)]) 16 0x02d5) = some 9 := by decide
theorem test_cAndi : regAfter 3 (ran (start [(3, 0x12345678)]) 16 0x1ed7) = some 8 := by decide
theorem test_cOri_sign_extends : regAfter 3 (ran (start [(3, 5)]) 16 0x80d9) = some 0xffffffc5 := by decide
theorem test_cXori : regAfter 3 (ran (start [(3, 0x0000ffff)]) 16 0xfedb) = some 0xffff0000 := by decide
theorem test_cSlli_masks_amount : regAfter 3 (ran (start [(3, 0x12345678)]) 16 0x42dd) = some 0x2468acf0 := by decide
theorem test_cSrli : regAfter 3 (ran (start [(3, 0x80000000)]) 16 0x02df) = some 0x40000000 := by decide
theorem test_cSrai_by_31 : regAfter 3 (ran (start [(3, 0x40000000)]) 16 0xfee1) = some 0 := by decide
theorem test_li_sign_extends : regAfter 3 (ran (start []) 32 0x800000e2) = some 0xffff8000 := by decide
theorem test_li_to_pc_jumps : regAfter 0 (ran (start []) 32 0x01000022) = some 0x100 := by decide
theorem test_cLi_sign_extends : regAfter 3 (ran (start []) 16 0x80e3) = some 0xffffffc0 := by decide
theorem test_lui_drops_old_value : regAfter 3 (ran (start [(3, 0xffffffff)]) 32 0x123400e4) = some 0x12340000 := by decide
theorem test_cLui_zero_extends : regAfter 3 (ran (start [(3, 0xffffffff)]) 16 0xfee5) = some 0x007f0000 := by decide

/-- A compressed instruction advances the program counter by 2, and the sum wraps (R17). -/
theorem test_pc_wraps : regAfter 0 (ran (start [(0, 0xfffffffe)]) 16 0x2101) = some 0 := by decide

theorem test_bez_taken : regAfter 0 (ran (start [(4, 0)]) 32 0x0010012a) = some 0x110 := by decide
theorem test_bez_not_taken : regAfter 0 (ran (start [(4, 0x80000000)]) 32 0x0010012a) = some 0x104 := by decide
theorem test_bnz_taken : regAfter 0 (ran (start [(0, 0x108), (4, 3)]) 32 0xfff8012c) = some 0x100 := by decide
theorem test_bnz_not_taken : regAfter 0 (ran (start [(0, 0x108), (4, 0)]) 32 0xfff8012c) = some 0x10c := by decide
theorem test_beq_taken : regAfter 0 (ran (start [(4, 7), (5, 7)]) 32 0x0010292e) = some 0x110 := by decide
theorem test_beq_not_taken : regAfter 0 (ran (start [(4, 7), (5, 8)]) 32 0x0010292e) = some 0x104 := by decide
theorem test_bne_taken : regAfter 0 (ran (start [(4, 1), (5, 2)]) 32 0x00102930) = some 0x110 := by decide
theorem test_bne_not_taken : regAfter 0 (ran (start [(4, 5), (5, 5)]) 32 0x00102930) = some 0x104 := by decide
theorem test_blt_taken : regAfter 0 (ran (start [(4, 0xffffffff), (5, 1)]) 32 0x00102932) = some 0x110 := by decide
theorem test_blt_not_taken : regAfter 0 (ran (start [(4, 0x7fffffff), (5, 0x80000000)]) 32 0x00102932) = some 0x104 := by decide
theorem test_bge_taken : regAfter 0 (ran (start [(4, 5), (5, 5)]) 32 0xfffc2934) = some 0xfc := by decide
theorem test_bge_not_taken : regAfter 0 (ran (start [(4, 0xffffffff), (5, 1)]) 32 0xfffc2934) = some 0x104 := by decide
theorem test_bltu_taken : regAfter 0 (ran (start [(4, 1), (5, 0xffffffff)]) 32 0x00102936) = some 0x110 := by decide
theorem test_bltu_not_taken : regAfter 0 (ran (start [(4, 0xffffffff), (5, 1)]) 32 0x00102936) = some 0x104 := by decide
theorem test_bgeu_taken : regAfter 0 (ran (start [(4, 0xffffffff), (5, 1)]) 32 0x00102938) = some 0x110 := by decide
theorem test_bgeu_not_taken : regAfter 0 (ran (start [(4, 1), (5, 0xffffffff)]) 32 0x00102938) = some 0x104 := by decide
theorem test_cBez_taken : regAfter 0 (ran (start [(4, 0)]) 16 0x612b) = some 0x106 := by decide
theorem test_cBez_not_taken : regAfter 0 (ran (start [(4, 9)]) 16 0x612b) = some 0x102 := by decide
theorem test_cBnz_taken : regAfter 0 (ran (start [(0, 0x104), (4, 2)]) 16 0xc12d) = some 0x100 := by decide
theorem test_cBnz_not_taken : regAfter 0 (ran (start [(0, 0x104), (4, 0)]) 16 0xc12d) = some 0x106 := by decide

/-- The bytes of a word at an address of the start state. -/
def holding (s : State) (a : Nat) (bs : List Byte) : State := s.withMem (s.mem.writeBytes a bs)

theorem test_load_little_endian :
    regAfter 3 (ran (holding (start [(1, 0x1000)]) 0x1004 [0x78, 0x56, 0x34, 0x12]) 32 0x000408e6) = some 0x12345678 := by
  decide
theorem test_load_misaligned :
    statusAfter (ran (under (start [(1, 0x1000)]) 0x10000 true .disabled) 32 0x000108e6) =
      some (.faulted (.memory 0x1001 .load .misaligned)) := by
  decide
theorem test_cLoad : regAfter 3 (ran (holding (start [(1, 0x1000)]) 0x1004 [0x78, 0x56, 0x34, 0x12]) 16 0x42e7) =
    some 0x12345678 := by
  decide
theorem test_cLoad_address_wraps_then_faults :
    statusAfter (ran (start [(1, 0xfffffffc)]) 16 0x12e7) = some (.faulted (.memory 0xfffffffd .load .outOfRange)) := by
  decide
theorem test_store_little_endian :
    after (·.mem.readBytes 0xffb 6) (ran (start [(1, 0x1000), (4, 0xcafef00d)]) 32 0xfffc0928) =
      some [0, 0x0d, 0xf0, 0xfe, 0xca, 0] := by
  decide
theorem test_store_of_pc : after (·.mem.readWord 0xfffffff8) (ran (start []) 32 0xfffc0828) = some 0x100 := by decide
theorem test_cStore : after (·.mem.readBytes 0xffb 6) (ran (start [(1, 0x1000), (4, 0xcafef00d)]) 16 0xc329) =
    some [0, 0x0d, 0xf0, 0xfe, 0xca, 0] := by
  decide
theorem test_cStore_out_of_range :
    after (fun t => (t.status, t.reg 0)) (ran (under (start [(1, 0x10001)]) 0x10000 false .disabled) 16 0xc329) =
      some (.faulted (.memory 0xfffd .store .outOfRange), 0x100) := by
  decide

theorem test_call_exit : after (fun t => (t.status, t.reg 0, t.reg 3)) (ran (start [(3, 9), (4, 55)]) 32 0x0000003a) =
    some (.exited 55, 0x100, 9) := by
  decide
theorem test_call_write_of_nothing :
    after (fun t => (t.reg 3, t.reg 0, t.status)) (ran (start [(3, 9), (4, 1), (5, 0xffffffff)]) 32 0x0002003a) =
      some (0, 0x104, .running) := by
  decide
theorem test_cCall_exit : statusAfter (ran (start [(4, 0xffffffff)]) 16 0x003b) = some (.exited 0xffffffff) := by decide
theorem test_cCall_unknown : statusAfter (ran (start [(0, 0)]) 16 0x123b) = some (.faulted (.syscall 0 9)) := by decide

theorem test_brk_notify :
    after (fun t => (t.breaks, t.reg 0, t.status)) (ran (under (start []) (2 ^ 32) false .notify) 32 0x0000003c) =
      some ([0x100], 0x104, .running) := by
  decide
theorem test_brk_disabled : after (fun t => (t.breaks, t.reg 0, t.status)) (ran (start []) 32 0x0000003c) =
    some ([], 0x104, .running) := by
  decide
theorem test_cBrk_halt :
    after (fun t => (t.breaks, t.reg 0, t.status)) (ran (under (start []) (2 ^ 32) false .halt) 16 0x003d) =
      some ([0x100], 0x102, .breakHalted 0x100) := by
  decide

/-- Section 2.8: the second half-word of an unassigned even opcode faults before the decoder sees it (R227). -/
theorem test_fetch_fault_before_decode_fault :
    statusAfter (ran (under (start [(0, 0xfffe)]) 0x10000 false .disabled) 32 0) =
      some (.faulted (.memory 0x10000 .fetch .outOfRange)) := by
  decide
theorem test_fetch_misaligned : statusAfter (ran (under (start [(0, 0x101)]) 0x10000 true .disabled) 32 0) =
    some (.faulted (.memory 0x101 .fetch .misaligned)) := by
  decide
theorem test_decode_fault : statusAfter (ran (start []) 16 0xffff) =
    some (.faulted (.decode 0x100 0x3f (.half 0xffff))) := by
  decide
theorem test_no_step_in_terminal_state : step ((start []).raise (.syscall 0 9)) = .fault (.halted (.faulted (.syscall 0 9))) :=
  rfl

/-! ### Witnesses: states and operands that meet the hypotheses of the statements, clause by clause -/

theorem witness_DecodeOfEncode : (Instr.addi 31 0 0xffff8000).wellFormed = true ∧ (Instr.cStore 7 1 0xfffffff8).wellFormed = true ∧
    (Instr.cLui 7 0x007f0000).wellFormed = true ∧ (Instr.call 0xffff).wellFormed = true := by
  decide
theorem witness_DecodeBytesOfEncode : (Instr.cCall 127).wellFormed = true ∧
    decodeBytes ((encode (.cCall 127)).bytes ++ [0xc2]) = .ok (.cCall 127, [0xc2]) := by
  decide
theorem witness_DecodedIsWellFormed : decode (.word 0xffe520c2) = .ok (.add 3 4 5) ∧ decode (.half 0xfe2b) = .ok (.cBez 0 0xffffffff) := by
  decide
theorem witness_DontCareBitsIgnored :
    ((0x000520c2 : Word).getLsbD 0 = false ∧ Assigned ((0x000520c2 : Word).extractLsb' 0 6) ∧
      (0x000520c2 : Word) &&& usedWord (field 0x000520c2 0 6) = 0xffe520c2 &&& usedWord (field 0x000520c2 0 6)) ∧
    ((0x0e2b : Half).getLsbD 0 = true ∧ Assigned ((0x0e2b : Half).extractLsb' 0 6) ∧
      (0x0e2b : Half) &&& usedHalf (field 0x0e2b 0 6) = 0x002b &&& usedHalf (field 0x0e2b 0 6)) := by
  unfold Assigned; decide

/-- A running state with an ADD at its program counter. -/
def atAdd : State := (start [(4, 1), (5, 2)]).withFetchWord 32 0x000520c2

theorem witness_StepRunsDecoded : atAdd.status = .running ∧ atAdd.fetch = .ok (.word 0x000520c2) ∧
    decode (.word 0x000520c2) = .ok (.add 3 4 5) := by
  decide

/-- A memory of `0x10000` bytes with `C.LI r4, 1` in its last two. -/
def atTop : State := (under (start [(0, 0xfffe)]) 0x10000 true .disabled).withFetchWord 16 0x0323

theorem witness_StepRunsEncoded : atTop.status = .running ∧ atTop.cfg.wf = true ∧ (Instr.cLi 4 1).wellFormed = true ∧
    atTop.mem.readBytes atTop.pc.toNat (encode (.cLi 4 1)).bytes.length = (encode (.cLi 4 1)).bytes ∧
    atTop.pc.toNat + (encode (.cLi 4 1)).bytes.length ≤ atTop.cfg.memSize ∧ ¬Misaligned atTop atTop.pc 2 := by
  unfold Misaligned; decide

/-- A running state at `p` in a memory of `0x10000` bytes with the word `w` placed there. -/
def fetching (p : Word) (w : Nat) : State := (under (start [(0, p)]) 0x10000 true .disabled).withFetchWord 32 w

theorem witness_FetchUnit_misaligned : (fetching 0xffff 0).cfg.wf = true ∧ Misaligned (fetching 0xffff 0) 0xffff 2 := by
  unfold Misaligned; decide
theorem witness_FetchUnit_first_half_out :
    ¬Misaligned (fetching 0x10000 0) 0x10000 2 ∧ (fetching 0x10000 0).cfg.memSize < (fetching 0x10000 0).pc.toNat + 2 := by
  unfold Misaligned; decide
theorem witness_FetchUnit_compressed :
    ¬Misaligned atTop atTop.pc 2 ∧ atTop.pc.toNat + 2 ≤ atTop.cfg.memSize ∧ (atTop.mem.read atTop.pc.toNat).getLsbD 0 = true := by
  unfold Misaligned; decide
theorem witness_FetchUnit_second_half_out :
    ¬Misaligned (fetching 0xfffe 0x22) 0xfffe 2 ∧ (fetching 0xfffe 0x22).pc.toNat + 2 ≤ (fetching 0xfffe 0x22).cfg.memSize ∧
    ((fetching 0xfffe 0x22).mem.read 0xfffe).getLsbD 0 = false ∧
    (fetching 0xfffe 0x22).cfg.memSize < (fetching 0xfffe 0x22).pc.toNat + 4 := by
  unfold Misaligned; decide
theorem witness_FetchUnit_standard :
    ¬Misaligned (fetching 0xfffc 0x22) 0xfffc 2 ∧ ((fetching 0xfffc 0x22).mem.read 0xfffc).getLsbD 0 = false ∧
    (fetching 0xfffc 0x22).pc.toNat + 4 ≤ (fetching 0xfffc 0x22).cfg.memSize := by
  unfold Misaligned; decide
theorem witness_FetchUnit_fault_ends_step : (fetching 0xfffe 0x22).status = .running ∧
    (fetching 0xfffe 0x22).fetch = .error (.memory 0x10000 .fetch .outOfRange) := by
  decide

theorem witness_NoStepWhenTerminal : (start []).status = .running ∧ ((start []).withStatus (.exited 3)).status ≠ .running := by
  decide
theorem witness_RunningStateSteps : State.reset.status = .running := rfl

/-- A running state at the all-zero word. -/
def atZeros : State := start []

theorem witness_DecodeFaultExactly : atZeros.status = .running ∧ atZeros.fetch = .ok (.word 0) ∧
    (InstBits.word 0).opcode ∈ unassignedOpcodes ∧
    step atZeros = .next (faulted atZeros (.decode 0x100 0 (.word 0))) :=
  ⟨by decide, by decide, by decide, rfl⟩
theorem witness_FaultsArePrecise : atZeros.status = .running ∧
    step atZeros = .next (faulted atZeros (.decode 0x100 0 (.word 0))) ∧
    (faulted atZeros (.decode 0x100 0 (.word 0))).status = .faulted (.decode 0x100 0 (.word 0)) :=
  ⟨rfl, rfl, rfl⟩
theorem witness_OnlyTraps_exit : ∃ t, step ((start [(4, 55)]).withFetchWord 32 0x3a) = .next t ∧ t.status = .exited 55 :=
  ⟨_, rfl, rfl⟩
theorem witness_OnlyTraps_breakHalted :
    ∃ t, step ((under (start []) (2 ^ 32) false .halt).withFetchWord 16 0x3d) = .next t ∧ t.status = .breakHalted 0x100 :=
  ⟨_, rfl, rfl⟩
theorem witness_OnlyTraps_syscall :
    ∃ t, step ((start []).withFetchWord 32 0x0006003a) = .next t ∧ t.status = .faulted (.syscall 0x100 6) :=
  ⟨_, rfl, rfl⟩

theorem witness_StepKeepsInv : atAdd.Inv ∧ ∃ t, step atAdd = .next t ∧ t.reg 3 = 3 := ⟨by decide, _, rfl, by decide⟩

/-- An image of two bytes at the very end of a memory of `0x10000` bytes. -/
def bootAtTop : Boot :=
  { entry := 0xfffe, imageBase := 0xfffe, image := [0x3b, 0x00], gpr := Vector.replicate 32 7, memInit := [(0x20, 5)] }

/-- A memory of `0x10000` bytes. -/
def smallConfig : Config := { memSize := 0x10000, alignEnforce := true, breakMode := .notify }

theorem witness_BootHasInv : smallConfig.wf = true ∧ bootAtTop.fits smallConfig = true := by decide
theorem witness_ResetState : bootAtTop.fits smallConfig = true ∧ bootAtTop.entryInImage smallConfig = true := by decide
theorem witness_ReachableHasInv : Reachable (State.boot smallConfig bootAtTop) ∧
    ∃ t, Reachable t ∧ t.status = .exited 7 ∧ Reachable (t.resetEvent bootAtTop) :=
  have h : Reachable (State.boot smallConfig bootAtTop) := .boot _ _ (by decide) (by decide)
  have h' : Reachable ((State.boot smallConfig bootAtTop).withStatus (.exited 7)) := .step _ _ h rfl
  ⟨h, _, h', rfl, .reset _ _ h' (by decide)⟩
theorem witness_ConfigurationConstant : ∃ t, step atAdd = .next t := ⟨_, rfl⟩
theorem witness_OnlyNamedRegisterChanges :
    ∃ t, exec (.load 3 1 0) (start []) = .next t ∧ (1 : Reg) ≠ 0 ∧ dest (.load 3 1 0) ≠ some 1 :=
  ⟨_, rfl, by decide, by decide⟩
theorem witness_OnlyStoreOrReadCallWritesMemory :
    ∃ t, exec (.call 2) (start []) = .next t ∧ isStore (.call 2) = false ∧ Instr.call 2 ≠ .call 1 ∧ Instr.call 2 ≠ .cCall 1 :=
  ⟨_, rfl, by decide, by decide, by decide⟩
theorem witness_NotificationsOnlyFromBreak :
    ∃ t, step ((under (start []) (2 ^ 32) false .notify).withFetchWord 32 0x3c) = .next t ∧ t.breaks = [0x100] :=
  ⟨_, rfl, rfl⟩
theorem witness_HostCallsOnlyFromCall :
    ∃ t, step ((start [(4, 1)]).withFetchWord 32 0x0004003a) = .next t ∧ t.hostCalls = [⟨4, 1, 0, 0, 0, []⟩] :=
  ⟨_, rfl, rfl⟩
theorem witness_NotificationStreamWriteOnly :
    ∃ t, step ((under (start []) (2 ^ 32) false .notify).withFetchWord 32 0x3c) = .next t := ⟨_, rfl⟩
theorem witness_StepIsFunctionOfCoreState : atAdd ≠ atAdd.notify 5 ∧ atAdd.regs = (atAdd.notify 5).regs ∧
    atAdd.mem = (atAdd.notify 5).mem ∧ atAdd.status = (atAdd.notify 5).status ∧ atAdd.cfg = (atAdd.notify 5).cfg ∧
    (∀ i, Runs atAdd i → isCall i = false) ∧ ∃ t, step atAdd = .next t := by
  refine ⟨by decide, rfl, rfl, rfl, rfl, ?_, _, rfl⟩
  rintro i ⟨-, bits, hf, hd⟩
  cases witness_StepRunsDecoded.2.1.symm.trans hf
  cases witness_StepRunsDecoded.2.2.symm.trans hd
  rfl

/-- Words that meet the opcode hypotheses of the form statements, one per opcode of each format. -/
theorem witness_standard_opcodes :
    [0x02, 0x04, 0x06, 0x08, 0x0a, 0x0c, 0x0e, 0x10, 0x12, 0x14, 0x16, 0x18, 0x1a, 0x1c, 0x1e, 0x20, 0x22, 0x24, 0x26, 0x28,
      0x2a, 0x2c, 0x2e, 0x30, 0x32, 0x34, 0x36, 0x38, 0x3a, 0x3c].all
      (fun op => field (0xffffffc0#32 + BitVec.ofNat 32 op).toNat 0 6 == op) = true := by
  decide
theorem witness_compressed_opcodes :
    [0x01, 0x03, 0x05, 0x07, 0x09, 0x0b, 0x0d, 0x0f, 0x11, 0x13, 0x15, 0x17, 0x19, 0x1b, 0x1d, 0x1f, 0x21, 0x23, 0x25, 0x27,
      0x29, 0x2b, 0x2d, 0x3b, 0x3d].all (fun op => field (0xffc0#16 + BitVec.ofNat 16 op).toNat 0 6 == op) = true := by
  decide
/-- Each branch predicate is met and missed by some register values. -/
theorem witness_branch_predicates : ((0 : Word) = 0 ∧ ¬(1 : Word) = 0) ∧ ((5 : Word) = 5 ∧ ¬(5 : Word) = 6) ∧
    ((0x80000000 : Word).toInt < (0x7fffffff : Word).toInt ∧ ¬(5 : Word).toInt < (5 : Word).toInt) ∧
    ((5 : Word).toInt ≥ (5 : Word).toInt ∧ ¬(0xffffffff : Word).toInt ≥ (0 : Word).toInt) ∧
    ((0 : Word).toNat < (0xffffffff : Word).toNat ∧ ¬(5 : Word).toNat < (5 : Word).toNat) ∧
    ((5 : Word).toNat ≥ (5 : Word).toNat ∧ ¬(0 : Word).toNat ≥ (1 : Word).toNat) := by
  decide
theorem witness_CompressedMatchesStandard :
    (Instr.cAdd 31 17, Instr.add 31 31 17) ∈ forms 31 17 0 ∧ (Instr.cLui 7 0x007f0000, Instr.lui 7 0x007f0000) ∈ forms 7 0 0x007f0000 := by
  decide
theorem witness_Gives : (0 : Reg) = 0 ∧ (31 : Reg) ≠ 0 := by decide
theorem witness_Idioms : (4 : Reg) ≠ 0 ∧ ¬Misaligned (start []) ((start []).reg 1) 4 ∧ InRange (start []) ((start []).reg 1) 4 := by
  unfold Misaligned InRange; decide

/-- A state with base register 1 at `a` in a memory of `0x10000` bytes, alignment enforced. -/
def based (a : Word) : State := under (start [(1, a)]) 0x10000 true .disabled

theorem witness_access_misaligned : Misaligned (based 0xfffe) ((based 0xfffe).reg 1 + 0) 4 := by unfold Misaligned; decide
theorem witness_access_out_of_range :
    ¬Misaligned (based 0x10000) ((based 0x10000).reg 1 + 0) 4 ∧ ¬InRange (based 0x10000) ((based 0x10000).reg 1 + 0) 4 := by
  unfold Misaligned InRange; decide
theorem witness_access_last_word :
    ¬Misaligned (based 0x10000) ((based 0x10000).reg 1 + 0xfffffffc) 4 ∧
    InRange (based 0x10000) ((based 0x10000).reg 1 + 0xfffffffc) 4 ∧ (based 0x10000).mem.wf = true := by
  unfold Misaligned InRange; decide
theorem witness_StoreThenLoadReturnsValue : (based 0x1000).mem.wf = true ∧
    ∃ t, exec (.store 4 1 0xfffffffc) (based 0x1000) = .next t ∧ t.status = .running ∧
      t.reg 1 + 0xfffffffc = (based 0x1000).reg 1 + 0xfffffffc ∧ (3 : Reg) ≠ 0 :=
  ⟨by decide, _, rfl, by decide, by decide, by decide⟩
theorem witness_NextFetchSeesStore : (start [(4, 0x00000f23)]).cfg.wf = true ∧ (start [(4, 0x00000f23)]).mem.wf = true ∧
    (start [(4, 0x00000f23)]).reg 0 + 4 = (start [(4, 0x00000f23)]).reg 0 + 4 ∧
    ¬Misaligned (start [(4, 0x00000f23)]) ((start [(4, 0x00000f23)]).reg 0 + 4) 4 ∧
    InRange (start [(4, 0x00000f23)]) ((start [(4, 0x00000f23)]).reg 0 + 4) 4 ∧
    ∃ t, exec (.store 4 0 4) (start [(4, 0x00000f23)]) = .next t ∧ t.mem.readHalf 0x104 = 0x0f23 := by
  unfold Misaligned InRange
  exact ⟨by decide, by decide, rfl, by decide, by decide, _, rfl, by decide⟩
theorem witness_LittleEndian : Memory.wf [(3, 5), (9, 1)] = true := by decide
theorem witness_CanonicalMemoryIsUnique : Memory.wf [(3, 5)] = true ∧ ∀ a, Memory.read [(3, 5)] a = Memory.read [(3, 5)] a :=
  ⟨by decide, fun _ => rfl⟩
theorem witness_NoWrap_data : (start [(1, 0xfffffffd)]).cfg.wf = true ∧
    (0xfffffffd : Nat) ≤ ((start [(1, 0xfffffffd)]).reg 1 + 0).toNat := by
  decide
theorem witness_NoWrap_last_byte : (start [(0, 0xffffffff)]).status = .running ∧ (start [(0, 0xffffffff)]).pc = 0xffffffff := by
  decide
theorem witness_NoWrap_standard_fetch : (start [(0, 0xfffffffd)]).status = .running ∧
    (0xfffffffd : Nat) ≤ (start [(0, 0xfffffffd)]).pc.toNat ∧ (start [(0, 0xfffffffd)]).pc ≠ 0xffffffff ∧
    (start [(0, 0xfffffffd)]).cfg.memSize = 2 ^ 32 ∧ ¬Misaligned (start [(0, 0xfffffffd)]) (start [(0, 0xfffffffd)]).pc 2 ∧
    ((start [(0, 0xfffffffd)]).mem.read (start [(0, 0xfffffffd)]).pc.toNat).getLsbD 0 = false := by
  unfold Misaligned; decide
theorem witness_ResetStackPointerNeedsFullMemory :
    (State.reset.cfg.wf = true ∧ State.reset.reg 1 = 0xfffffffc ∧ State.reset.cfg.memSize = 2 ^ 32) ∧
    ((based 0xfffffffc).cfg.wf = true ∧ (based 0xfffffffc).reg 1 = 0xfffffffc ∧ (based 0xfffffffc).cfg.memSize ≠ 2 ^ 32) := by
  decide

theorem witness_IsCall : IsCall .call 4 ∧ IsCall .cCall 2 := ⟨.inl ⟨rfl, rfl⟩, .inr ⟨rfl, rfl⟩⟩
theorem witness_UnknownSyscallFaults : 5 < (6 : Word).toNat ∧ (5 : Word).toNat ≤ 5 ∧
    ∃ t, exec (.cCall 5) (start []) = .next t ∧ (start []).status = .running := by
  exact ⟨by decide, by decide, _, rfl, rfl⟩

/-- A memory of `0x10000` bytes, a buffer at `p` of `l` bytes in registers 5 and 6. -/
def buffered (p l : Word) : State := under (start [(5, p), (6, l)]) 0x10000 true .disabled

theorem witness_SyscallBufferCheck_out : BufferOut (buffered 0xfffd 4) 1 0xfffd 4 := by unfold BufferOut; decide
theorem witness_SyscallBufferCheck_in : (1 : Nat) ≤ (1 : Word).toNat ∧ (1 : Word).toNat ≤ 5 ∧
    ¬∃ p l, BufferOut (buffered 0xfffd 3) 1 p l := by
  refine ⟨by decide, by decide, ?_⟩
  rintro ⟨p, l, h, -, h'⟩
  have hb : buffer (buffered 0xfffd 3) 1 = some (0xfffd, 3) := by decide
  cases hb.symm.trans h
  exact absurd h' (by decide)
theorem witness_SyscallCompletes : 1 ≤ (4 : Word).toNat ∧ (4 : Word).toNat ≤ 5 ∧ (¬∃ p l, BufferOut (start []) 4 p l) ∧
    (¬∃ p l, BufferOut (buffered 0xffffffff 0) 2 p l) ∧ (buffered 0xffffffff 0).reg 6 = 0 := by
  refine ⟨by decide, by decide, ?_, ?_, by decide⟩
  · rintro ⟨p, l, h, -⟩
    simp [buffer] at h
  · rintro ⟨p, l, h, h', -⟩
    have hb : buffer (buffered 0xffffffff 0) 2 = some (0xffffffff, 0) := by decide
    cases hb.symm.trans h
    exact h' rfl
theorem witness_SyscallBuffersMoveBytes :
    (∃ t q, exec (.call 2) (buffered 0x200 3) = .next t ∧ t.hostCalls = (buffered 0x200 3).hostCalls ++ [q]) ∧
    (∃ t q, exec (.cCall 3) (start [(4, 0x200), (5, 1)]) = .next t ∧
      t.hostCalls = (start [(4, 0x200), (5, 1)]).hostCalls ++ [q]) ∧
    ∃ t q, exec (.call 1) (buffered 0x200 1) = .next t ∧ t.hostCalls = (buffered 0x200 1).hostCalls ++ [q] ∧
      (buffered 0x200 1).mem.wf = true :=
  ⟨⟨_, _, rfl, rfl⟩, ⟨_, _, rfl, rfl⟩, _, _, rfl, rfl, by decide⟩
theorem witness_BreakpointModes : (start []).cfg.breakMode = .disabled ∧
    (under (start []) 0x10000 true .notify).cfg.breakMode = .notify ∧
    (under (start []) 0x10000 true .halt).cfg.breakMode = .halt := by
  decide

end Sys2Proof.Tests
end

section
/-! # The forms of the instructions

Every instruction is one of six forms: a result for a register, a branch, a load, a store, a system call, a breakpoint. `formOf`
is the table, `exec_eq_run` ties it to `exec`; later proofs split over the six forms instead of the 55 instructions. -/

namespace Sys2Proof.Machine

open Sys2Proof.Claims

/-- What an instruction does, with its operands. A result and a branch condition depend on the registers alone. -/
inductive Form where
  | result (ilen : Word) (rd : Reg) (value : (Reg → Word) → Word)
  | branch (ilen : Word) (taken : (Reg → Word) → Bool) (imm : Word)
  | load (ilen : Word) (rd base : Reg) (imm : Word)
  | store (ilen : Word) (src base : Reg) (imm : Word)
  | call (ilen n : Word)
  | brk (ilen : Word)

namespace Form

/-- The state after an instruction of this form. -/
def run (s : State) : Form → State
  | result ilen rd value => s.retire ilen rd (value s.reg)
  | branch ilen taken imm => s.branch ilen (taken s.reg) imm
  | load ilen rd base imm => s.opLoad ilen rd base imm
  | store ilen src base imm => s.opStore ilen src base imm
  | call ilen n => s.syscall ilen n
  | brk ilen => s.breakpoint ilen

/-- The register an instruction of this form may write besides slot 0 (R14). -/
def dest : Form → Option Reg
  | result _ rd _ | load _ rd _ _ => some rd
  | call _ _ => some 3
  | branch _ _ _ | store _ _ _ _ | brk _ => none

/-- The events an instruction of this form puts on the notification stream (R25, R177). -/
def events (s : State) : Form → List Word
  | brk _ => if s.cfg.breakMode = .disabled then [] else [s.pc]
  | _ => []

/-- The operand forms of R81. -/
def opR (f : Word → Word → Word) (rd rs1 rs2 : Reg) : Form := result 4 rd fun x => f (x rs1) (x rs2)
def opI (f : Word → Word → Word) (rd rs1 : Reg) (imm : Word) : Form := result 4 rd fun x => f (x rs1) imm
def opCR (f : Word → Word → Word) (rd rs2 : Reg) : Form := result 2 rd fun x => f (x rd) (x rs2)
def opCI (f : Word → Word → Word) (rd : Reg) (imm : Word) : Form := result 2 rd fun x => f (x rd) imm

end Form

/-- The form of each instruction. -/
def formOf : Instr → Form
  | .cMv rd rs2 => .result 2 rd fun x => x rs2
  | .add rd rs1 rs2 => .opR aluAdd rd rs1 rs2
  | .sub rd rs1 rs2 => .opR aluSub rd rs1 rs2
  | .and rd rs1 rs2 => .opR aluAnd rd rs1 rs2
  | .or rd rs1 rs2 => .opR aluOr rd rs1 rs2
  | .xor rd rs1 rs2 => .opR aluXor rd rs1 rs2
  | .sll rd rs1 rs2 => .opR aluSll rd rs1 rs2
  | .srl rd rs1 rs2 => .opR aluSrl rd rs1 rs2
  | .sra rd rs1 rs2 => .opR aluSra rd rs1 rs2
  | .addi rd rs1 imm => .opI aluAdd rd rs1 imm
  | .subi rd rs1 imm => .opI aluSub rd rs1 imm
  | .andi rd rs1 imm => .opI aluAnd rd rs1 imm
  | .ori rd rs1 imm => .opI aluOr rd rs1 imm
  | .xori rd rs1 imm => .opI aluXor rd rs1 imm
  | .slli rd rs1 imm => .opI aluSll rd rs1 imm
  | .srli rd rs1 imm => .opI aluSrl rd rs1 imm
  | .srai rd rs1 imm => .opI aluSra rd rs1 imm
  | .cAdd rd rs2 => .opCR aluAdd rd rs2
  | .cSub rd rs2 => .opCR aluSub rd rs2
  | .cAnd rd rs2 => .opCR aluAnd rd rs2
  | .cOr rd rs2 => .opCR aluOr rd rs2
  | .cXor rd rs2 => .opCR aluXor rd rs2
  | .cSll rd rs2 => .opCR aluSll rd rs2
  | .cSrl rd rs2 => .opCR aluSrl rd rs2
  | .cSra rd rs2 => .opCR aluSra rd rs2
  | .cAddi rd imm => .opCI aluAdd rd imm
  | .cSubi rd imm => .opCI aluSub rd imm
  | .cAndi rd imm => .opCI aluAnd rd imm
  | .cOri rd imm => .opCI aluOr rd imm
  | .cXori rd imm => .opCI aluXor rd imm
  | .cSlli rd imm => .opCI aluSll rd imm
  | .cSrli rd imm => .opCI aluSrl rd imm
  | .cSrai rd imm => .opCI aluSra rd imm
  | .li rd imm | .lui rd imm => .result 4 rd fun _ => imm
  | .cLi rd imm | .cLui rd imm => .result 2 rd fun _ => imm
  | .load rd rs1 imm => .load 4 rd rs1 imm
  | .cLoad rd rs1 imm => .load 2 rd rs1 imm
  | .store rs1 rs2 imm => .store 4 rs1 rs2 imm
  | .cStore rs1 rs2 imm => .store 2 rs1 rs2 imm
  | .bez rs1 imm => .branch 4 (fun x => takenZero (x rs1)) imm
  | .bnz rs1 imm => .branch 4 (fun x => takenNonzero (x rs1)) imm
  | .beq rs1 rs2 imm => .branch 4 (fun x => takenEq (x rs1) (x rs2)) imm
  | .bne rs1 rs2 imm => .branch 4 (fun x => takenNe (x rs1) (x rs2)) imm
  | .blt rs1 rs2 imm => .branch 4 (fun x => takenLt (x rs1) (x rs2)) imm
  | .bge rs1 rs2 imm => .branch 4 (fun x => takenGe (x rs1) (x rs2)) imm
  | .bltu rs1 rs2 imm => .branch 4 (fun x => takenLtU (x rs1) (x rs2)) imm
  | .bgeu rs1 rs2 imm => .branch 4 (fun x => takenGeU (x rs1) (x rs2)) imm
  | .cBez rs1 imm => .branch 2 (fun x => takenZero (x rs1)) imm
  | .cBnz rs1 imm => .branch 2 (fun x => takenNonzero (x rs1)) imm
  | .call n => .call 4 n
  | .cCall n => .call 2 n
  | .brk => .brk 4
  | .cBrk => .brk 2

/-- Every instruction has a meaning, that of its form. -/
theorem exec_eq_run (i : Instr) (s : State) : exec i s = .next ((formOf i).run s) := by
  cases i <;> rfl

theorem exec_eq_next_iff {i : Instr} {s t : State} : exec i s = .next t ↔ t = (formOf i).run s := by
  rw [exec_eq_run, Host.Outcome.next.injEq, eq_comm]

/-- The destination the statements name is the one of the form. -/
theorem formOf_dest (i : Instr) : (formOf i).dest = Claims.dest i := by
  cases i <;> rfl

theorem formOf_eq_call {i : Instr} {ilen n : Word} (h : formOf i = .call ilen n) : i = .call n ∨ i = .cCall n := by
  cases i <;> cases h <;> simp

theorem formOf_eq_brk {i : Instr} {ilen : Word} (h : formOf i = .brk ilen) : i = .brk ∨ i = .cBrk := by
  cases i <;> cases h <;> simp

/-! ### Raising a DecodeFault (R221, R226) -/

@[simp] theorem State.raiseDecode_status (s : State) (bits : InstBits) :
    (s.raiseDecode bits).status = .faulted (.decode s.pc bits.opcode bits) := rfl
@[simp] theorem State.raiseDecode_breaks (s : State) (bits : InstBits) : (s.raiseDecode bits).breaks = s.breaks := rfl
@[simp] theorem State.raiseDecode_cfg (s : State) (bits : InstBits) : (s.raiseDecode bits).cfg = s.cfg := rfl

/-! ### What a form leaves as it was -/

/-- No form changes the configuration (R20). -/
@[simp] theorem Form.run_cfg (F : Form) (s : State) : (F.run s).cfg = s.cfg := by
  cases F with
  | result ilen rd value => exact State.retire_cfg ..
  | branch ilen taken imm => exact State.branch_cfg ..
  | load ilen rd base imm =>
    obtain ⟨f, -, h⟩ | ⟨-, h⟩ := s.opLoad_cases ilen rd base imm <;> simp [Form.run, h]
  | store ilen src base imm =>
    obtain ⟨f, -, h⟩ | ⟨-, h⟩ := s.opStore_cases ilen src base imm <;> simp [Form.run, h]
  | call ilen n =>
    obtain ⟨-, h⟩ | ⟨-, h⟩ | ⟨-, -, f, -, h⟩ | ⟨-, -, -, h⟩ := s.syscall_cases ilen n <;> simp [Form.run, h]
  | brk ilen =>
    obtain ⟨-, h⟩ | ⟨-, h⟩ | ⟨-, h⟩ := s.breakpoint_cases ilen <;> simp [Form.run, h]

/-- A form changes no register but slot 0 and its destination (R14, R199). -/
theorem Form.run_reg_of_ne {F : Form} {q : Reg} (h0 : q ≠ 0) (hd : F.dest ≠ some q) (s : State) :
    (F.run s).reg q = s.reg q := by
  cases F with
  | result ilen rd value =>
    have hq : q ≠ rd := fun h => hd (congrArg some h.symm)
    simp [Form.run, State.reg_retire, h0, hq]
  | branch ilen taken imm => simp [Form.run, State.reg_branch, h0]
  | load ilen rd base imm =>
    have hq : q ≠ rd := fun h => hd (congrArg some h.symm)
    obtain ⟨f, -, h⟩ | ⟨-, h⟩ := s.opLoad_cases ilen rd base imm <;> simp [Form.run, h, State.reg_retire, h0, hq]
  | store ilen src base imm =>
    obtain ⟨f, -, h⟩ | ⟨-, h⟩ := s.opStore_cases ilen src base imm <;> simp [Form.run, h, State.reg_advance, h0]
  | call ilen n =>
    have hq : q ≠ 3 := fun h => hd (congrArg some h.symm)
    obtain ⟨-, h⟩ | ⟨-, h⟩ | ⟨-, -, f, -, h⟩ | ⟨-, -, -, h⟩ := s.syscall_cases ilen n <;>
      simp [Form.run, h, State.reg_completeCall, h0, hq]
  | brk ilen =>
    obtain ⟨-, h⟩ | ⟨-, h⟩ | ⟨-, h⟩ := s.breakpoint_cases ilen <;> simp [Form.run, h, State.reg_advance, h0]

/-- A form appends its events to the notification stream and takes none away. -/
theorem Form.run_breaks (F : Form) (s : State) : (F.run s).breaks = s.breaks ++ F.events s := by
  cases F with
  | result ilen rd value => simp [Form.run, Form.events]
  | branch ilen taken imm => simp [Form.run, Form.events]
  | load ilen rd base imm =>
    obtain ⟨f, -, h⟩ | ⟨-, h⟩ := s.opLoad_cases ilen rd base imm <;> simp [Form.run, Form.events, h]
  | store ilen src base imm =>
    obtain ⟨f, -, h⟩ | ⟨-, h⟩ := s.opStore_cases ilen src base imm <;> simp [Form.run, Form.events, h]
  | call ilen n =>
    obtain ⟨-, h⟩ | ⟨-, h⟩ | ⟨-, -, f, -, h⟩ | ⟨-, -, -, h⟩ := s.syscall_cases ilen n <;>
      simp [Form.run, Form.events, h]
  | brk ilen =>
    obtain ⟨hm, h⟩ | ⟨hm, h⟩ | ⟨hm, h⟩ := s.breakpoint_cases ilen <;> simp [Form.run, Form.events, hm, h]

/-- Only a breakpoint has events: one, its own address, and only with `BREAK_MODE` other than `disabled` (R177). -/
theorem Form.events_cases (F : Form) (s : State) :
    F.events s = [] ∨ (F.events s = [s.pc] ∧ (∃ ilen, F = .brk ilen) ∧ s.cfg.breakMode ≠ .disabled) := by
  cases F with
  | brk ilen =>
    by_cases h : s.cfg.breakMode = .disabled
    · exact .inl (if_pos h)
    · exact .inr ⟨if_neg h, ⟨ilen, rfl⟩, h⟩
  | _ => exact .inl rfl

/-! ### The trap state after a form -/

/-- An access raises only a MemoryFault (R223). -/
theorem State.accessFault_memory {s : State} {addr : Word} {n : Nat} {k : Access} {f : FaultReport}
    (h : s.accessFault addr n k = some f) : ∃ c, f = .memory addr k c := by
  obtain ⟨-, -, rfl⟩ | ⟨-, -, rfl⟩ := State.accessFault_some.mp h <;> exact ⟨_, rfl⟩

/-- A fetch raises only a MemoryFault (R192, R223). -/
theorem State.fetch_error_memory {s : State} {f : FaultReport} (h : s.fetch = .error f) :
    ∃ addr c, f = .memory addr .fetch c := by
  obtain ⟨g, hg, he⟩ | ⟨-, -, he⟩ | ⟨-, -, ⟨-, he⟩ | ⟨-, ⟨g, hg, he⟩ | ⟨-, he⟩⟩⟩ := s.fetch_cases
  · cases he.symm.trans h
    exact ⟨_, State.accessFault_memory hg⟩
  · cases he.symm.trans h
  · cases he.symm.trans h
    exact ⟨_, _, rfl⟩
  · cases he.symm.trans h
    exact ⟨_, State.accessFault_memory hg⟩
  · cases he.symm.trans h

/-- The ways an instruction of form `F` can end, from `s` in `t`, as far as the trap state goes (R21). -/
inductive Form.Ending (F : Form) (s t : State) : Prop where
  | unchanged (h : t.status = s.status)
  | memoryFault (addr : Word) (access : Access) (cause : MemoryCause) (h : t = s.raise (.memory addr access cause))
  | syscallFault (ilen n : Word) (hF : F = .call ilen n) (hn : 5 < n.toNat) (h : t = s.raise (.syscall s.pc n))
  | exited (ilen : Word) (hF : F = .call ilen 0) (h : t = s.withStatus (.exited (s.reg 4)))
  | breakHalted (ilen : Word) (hF : F = .brk ilen) (hm : s.cfg.breakMode = .halt) (h : t.status = .breakHalted s.pc)

theorem Form.run_ending (F : Form) (s : State) : F.Ending s (F.run s) := by
  cases F with
  | result ilen rd value => exact .unchanged (State.retire_status ..)
  | branch ilen taken imm => exact .unchanged (State.branch_status ..)
  | load ilen rd base imm =>
    obtain ⟨f, hf, h⟩ | ⟨-, h⟩ := s.opLoad_cases ilen rd base imm
    · obtain ⟨c, rfl⟩ := State.accessFault_memory hf
      exact .memoryFault _ _ _ h
    · exact .unchanged (by simp [Form.run, h])
  | store ilen src base imm =>
    obtain ⟨f, hf, h⟩ | ⟨-, h⟩ := s.opStore_cases ilen src base imm
    · obtain ⟨c, rfl⟩ := State.accessFault_memory hf
      exact .memoryFault _ _ _ h
    · exact .unchanged (by simp [Form.run, h])
  | call ilen n =>
    obtain ⟨hn, h⟩ | ⟨rfl, h⟩ | ⟨-, -, f, hf, h⟩ | ⟨-, -, -, h⟩ := s.syscall_cases ilen n
    · exact .syscallFault ilen n rfl hn h
    · exact .exited ilen rfl h
    · obtain ⟨p, l, -, -, -, rfl⟩ := State.bufferFault_some.mp hf
      exact .memoryFault _ _ _ h
    · exact .unchanged (by simp [Form.run, h])
  | brk ilen =>
    obtain ⟨-, h⟩ | ⟨-, h⟩ | ⟨hm, h⟩ := s.breakpoint_cases ilen
    · exact .unchanged (by simp [Form.run, h])
    · exact .unchanged (by simp [Form.run, h])
    · exact .breakHalted ilen rfl hm (by simp [Form.run, h])

/-! ### Another notification stream -/

/-- The state with another notification stream. -/
def State.withBreaks (s : State) (bs : List Word) : State := { s with breaks := bs }

@[simp] theorem State.withBreaks_reg (s : State) (bs : List Word) : (s.withBreaks bs).reg = s.reg := rfl
@[simp] theorem State.withBreaks_pc (s : State) (bs : List Word) : (s.withBreaks bs).pc = s.pc := rfl
@[simp] theorem State.withBreaks_cfg (s : State) (bs : List Word) : (s.withBreaks bs).cfg = s.cfg := rfl
@[simp] theorem State.withBreaks_fetch (s : State) (bs : List Word) : (s.withBreaks bs).fetch = s.fetch := rfl

theorem State.notify_withBreaks (s : State) (bs : List Word) (addr : Word) :
    (s.withBreaks bs).notify addr = (s.notify addr).withBreaks (bs ++ [addr]) := rfl

theorem State.withStatus_withBreaks (s : State) (bs : List Word) (st : Status) :
    (s.withBreaks bs).withStatus st = (s.withStatus st).withBreaks bs := rfl

theorem State.raise_withBreaks (s : State) (bs : List Word) (f : FaultReport) :
    (s.withBreaks bs).raise f = (s.raise f).withBreaks bs := rfl

theorem State.commit_withBreaks (s : State) (bs : List Word) (ilen : Word) (d : Option (Reg × Word)) (taken : Option Word) :
    (s.withBreaks bs).commit ilen d taken = (s.commit ilen d taken).withBreaks bs := by
  unfold State.commit
  split
  · split <;> rfl
  · rfl

theorem State.retire_withBreaks (s : State) (bs : List Word) (ilen : Word) (rd : Reg) (v : Word) :
    (s.withBreaks bs).retire ilen rd v = (s.retire ilen rd v).withBreaks bs := s.commit_withBreaks ..

theorem State.advance_withBreaks (s : State) (bs : List Word) (ilen : Word) :
    (s.withBreaks bs).advance ilen = (s.advance ilen).withBreaks bs := s.commit_withBreaks ..

theorem State.branch_withBreaks (s : State) (bs : List Word) (ilen : Word) (taken : Bool) (imm : Word) :
    (s.withBreaks bs).branch ilen taken imm = (s.branch ilen taken imm).withBreaks bs := s.commit_withBreaks ..

theorem State.opLoad_withBreaks (s : State) (bs : List Word) (ilen : Word) (rd base : Reg) (imm : Word) :
    (s.withBreaks bs).opLoad ilen rd base imm = (s.opLoad ilen rd base imm).withBreaks bs := by
  have hw : (s.withBreaks bs).loadWord ((s.withBreaks bs).ea base imm) = s.loadWord (s.ea base imm) := rfl
  unfold State.opLoad
  rw [hw]
  cases s.loadWord (s.ea base imm) with
  | error f => rfl
  | ok v => exact s.retire_withBreaks ..

theorem State.opStore_withBreaks (s : State) (bs : List Word) (ilen : Word) (src base : Reg) (imm : Word) :
    (s.withBreaks bs).opStore ilen src base imm = (s.opStore ilen src base imm).withBreaks bs := by
  have ha : (s.withBreaks bs).accessFault ((s.withBreaks bs).ea base imm) 4 .store =
      s.accessFault (s.ea base imm) 4 .store := rfl
  unfold State.opStore State.storeWord
  rw [ha]
  cases s.accessFault (s.ea base imm) 4 .store with
  | some f => rfl
  | none => exact State.advance_withBreaks (s.withMem _) ..

theorem State.completeCall_withBreaks (s : State) (bs : List Word) (ilen n : Word) :
    (s.withBreaks bs).completeCall ilen n = (s.completeCall ilen n).withBreaks bs :=
  State.retire_withBreaks ((s.withMem (s.hostMem n)).request (s.hostRequest n)) ..

theorem State.syscall_withBreaks (s : State) (bs : List Word) (ilen n : Word) :
    (s.withBreaks bs).syscall ilen n = (s.syscall ilen n).withBreaks bs := by
  have hb : (s.withBreaks bs).bufferFault n = s.bufferFault n := rfl
  unfold State.syscall
  rw [hb]
  split
  · rfl
  · split
    · rfl
    · cases s.bufferFault n with
      | some f => rfl
      | none => exact s.completeCall_withBreaks ..

/-- A form does the same whatever stands in the notification stream, and appends the same events (R25). -/
theorem Form.run_withBreaks (F : Form) (s : State) (bs : List Word) :
    F.run (s.withBreaks bs) = (F.run s).withBreaks (bs ++ F.events s) := by
  cases F with
  | result ilen rd value => simp [Form.run, Form.events, State.retire_withBreaks]
  | branch ilen taken imm => simp [Form.run, Form.events, State.branch_withBreaks]
  | load ilen rd base imm => simp [Form.run, Form.events, State.opLoad_withBreaks]
  | store ilen src base imm => simp [Form.run, Form.events, State.opStore_withBreaks]
  | call ilen n => simp [Form.run, Form.events, State.syscall_withBreaks]
  | brk ilen =>
    cases h : s.cfg.breakMode <;>
      simp [Form.run, Form.events, State.breakpoint, h, State.notify_withBreaks, State.advance_withBreaks,
        State.withStatus_withBreaks]

end Sys2Proof.Machine
end

section
/-! # The step

Its equation in each case, and the one inversion lemma later proofs take a step apart with. -/

namespace Sys2Proof.Machine

open Sys2Proof.Claims

theorem step_of_fetch_error {s : State} {f : FaultReport} (hr : s.status = .running) (hf : s.fetch = .error f) :
    step s = .next (s.raise f) := by
  simp [step, hr, hf]

theorem step_of_decode_error {s : State} {bits : InstBits} {e : DecodeError} (hr : s.status = .running)
    (hf : s.fetch = .ok bits) (hd : decode bits = .error e) : step s = .next (s.raiseDecode bits) := by
  simp [step, hr, hf, hd]

theorem step_of_runs {s : State} {i : Instr} (h : Runs s i) : step s = .next ((formOf i).run s) := by
  obtain ⟨hr, bits, hf, hd⟩ := h
  simp [step, hr, hf, hd, exec_eq_run]

theorem step_of_not_running {s : State} (h : s.status ≠ .running) : step s = .fault (.halted s.status) := by
  unfold step
  split
  · exact absurd ‹_› h
  · rfl

/-- The ways a step can go from `s` to `t` (R199): the fetch faults, the opcode is unassigned, or an instruction runs. -/
inductive Stepped (s t : State) : Prop where
  | fetchFault (f : FaultReport) (hf : s.fetch = .error f) (ht : t = s.raise f)
  | decodeFault (bits : InstBits) (e : DecodeError) (hf : s.fetch = .ok bits) (hd : decode bits = .error e)
    (ht : t = s.raiseDecode bits)
  | ran (i : Instr) (hi : Runs s i) (ht : t = (formOf i).run s)

/-- A step is made only while `Running`, in one of the three ways. -/
theorem step_cases {s t : State} (h : step s = .next t) : s.status = .running ∧ Stepped s t := by
  by_cases hr : s.status = .running
  · refine ⟨hr, ?_⟩
    cases hf : s.fetch with
    | error f =>
      cases (step_of_fetch_error hr hf).symm.trans h
      exact .fetchFault f hf rfl
    | ok bits =>
      cases hd : decode bits with
      | error e =>
        cases (step_of_decode_error hr hf hd).symm.trans h
        exact .decodeFault bits e hf hd rfl
      | ok i =>
        have hi : Runs s i := ⟨hr, bits, hf, hd⟩
        cases (step_of_runs hi).symm.trans h
        exact .ran i hi rfl
  · cases (step_of_not_running hr).symm.trans h

theorem runs_call {s : State} {i : Instr} {ilen n : Word} (hi : Runs s i) (h : formOf i = .call ilen n) :
    Runs s (.call n) ∨ Runs s (.cCall n) := by
  obtain rfl | rfl := formOf_eq_call h
  · exact .inl hi
  · exact .inr hi

theorem runs_brk {s : State} {i : Instr} {ilen : Word} (hi : Runs s i) (h : formOf i = .brk ilen) :
    Runs s .brk ∨ Runs s .cBrk := by
  obtain rfl | rfl := formOf_eq_brk h
  · exact .inl hi
  · exact .inr hi

/-- The trap state after a step, with what each way out of `Running` tells about the step (R21, R220). -/
inductive StepEnding (s t : State) : Prop where
  | running (h : t.status = .running)
  | memoryFault (addr : Word) (access : Access) (cause : MemoryCause) (h : t = s.raise (.memory addr access cause))
  | decodeFault (bits : InstBits) (h : t = s.raiseDecode bits)
  | syscallFault (n : Word) (hi : Runs s (.call n) ∨ Runs s (.cCall n)) (hn : 5 < n.toNat) (h : t = s.raise (.syscall s.pc n))
  | exited (hi : Runs s (.call 0) ∨ Runs s (.cCall 0)) (h : t = s.withStatus (.exited (s.reg 4)))
  | breakHalted (hi : Runs s .brk ∨ Runs s .cBrk) (hm : s.cfg.breakMode = .halt) (h : t.status = .breakHalted s.pc)

theorem step_ending {s t : State} (h : step s = .next t) : StepEnding s t := by
  obtain ⟨hr, hs⟩ := step_cases h
  cases hs with
  | fetchFault f hf ht =>
    obtain ⟨addr, c, rfl⟩ := State.fetch_error_memory hf
    exact .memoryFault addr .fetch c ht
  | decodeFault bits e hf hd ht => exact .decodeFault bits ht
  | ran i hi ht =>
    subst ht
    cases (formOf i).run_ending s with
    | unchanged h => exact .running (h.trans hr)
    | memoryFault addr access cause h => exact .memoryFault addr access cause h
    | syscallFault ilen n hF hn h => exact .syscallFault n (runs_call hi hF) hn h
    | exited ilen hF h => exact .exited (runs_call hi hF) h
    | breakHalted ilen hF hm h => exact .breakHalted (runs_brk hi hF) hm h

end Sys2Proof.Machine
end

section
/-! # The state after reset (R26, R252) -/

namespace Sys2Proof.Machine

theorem Boot.fits_iff {b : Boot} {c : Config} :
    b.fits c = true ↔ b.memInit.wf = true ∧ b.memInit.below c.memSize = true ∧
      b.imageBase.toNat + b.image.length ≤ c.memSize := by
  simp [Boot.fits, and_assoc]

/-- The registers after reset: the entry, the fixed stack pointer, and what the environment gives. -/
theorem State.reg_boot (c : Config) (b : Boot) (r : Reg) :
    (State.boot c b).reg r = if r = 1 then 0xfffffffc else if r = 0 then b.entry else b.gpr[r] := by
  simp only [State.reg, State.boot, Fin.getElem_fin, Vector.getElem_set, Fin.ext_iff, eq_comm]
  rfl

theorem State.reg_boot_of_two_le {c : Config} {b : Boot} {r : Reg} (h : 2 ≤ r.val) :
    (State.boot c b).reg r = b.gpr[r] := by
  have h1 : r ≠ 1 := by rintro rfl; exact absurd h (by decide)
  have h0 : r ≠ 0 := by rintro rfl; exact absurd h (by decide)
  rw [State.reg_boot, if_neg h1, if_neg h0]

/-- Each byte after reset: the image's where the image stands, elsewhere that of `MEM_INIT`. -/
theorem State.read_boot {c : Config} {b : Boot} (h : b.fits c = true) (a : Nat) :
    (State.boot c b).mem.read a =
      if b.imageBase.toNat ≤ a ∧ a < b.imageBase.toNat + b.image.length then b.image.getD (a - b.imageBase.toNat) 0
      else b.memInit.read a :=
  Memory.read_writeBytes (Boot.fits_iff.mp h).1 _ _ _

/-- Memory at reset lists no address outside `MEM_SIZE` (R252). -/
theorem State.below_boot_mem {c : Config} {b : Boot} (h : b.fits c = true) :
    (State.boot c b).mem.below c.memSize = true := by
  obtain ⟨-, hbelow, himage⟩ := Boot.fits_iff.mp h
  exact Memory.below_writeBytes hbelow _ himage

theorem Config.wf_default : Config.default.wf = true := by decide

theorem Boot.fits_default : Boot.default.fits Config.default = true := by decide

end Sys2Proof.Machine
end

section
/-! # The statements about the state (spec/10_state.md) -/

namespace Sys2Proof.Machine

open Sys2Proof.Claims

/-- Settles O14: the ways a step can end are those of `StepEnding`, and each trap state belongs to one of them. -/
theorem onlyTrapsLeaveRunning : Obligations.OnlyTrapsLeaveRunning := by
  intro s t _ h
  refine ⟨fun c hc => ?_, fun a ha => ?_, fun a k hk => ?_, fun a n hn => ?_⟩
  · cases step_ending h with
    | exited hi ht =>
      subst ht
      cases hc
      exact ⟨hi, rfl, rfl⟩
    | _ => simp_all
  · cases step_ending h with
    | breakHalted hi hm ht =>
      cases ht.symm.trans ha
      exact ⟨hi, rfl, hm⟩
    | _ => simp_all
  · cases step_ending h <;> simp_all
  · cases step_ending h with
    | syscallFault m hi hm ht =>
      subst ht
      cases hn
      exact ⟨hi, rfl, hm⟩
    | _ => simp_all

/-- Settles O17: the image is written inside `MEM_SIZE` over a canonical `MEM_INIT`, and the status is `Running`. -/
theorem bootHasInv : Obligations.BootHasInv :=
  fun _ _ hc hb => ⟨hc, State.wf_boot_mem hb, State.below_boot_mem hb, rfl⟩

/-- Settles O19: raising a fault and every form keep the configuration. -/
theorem configurationConstant : Obligations.ConfigurationConstant := by
  intro s t h
  cases (step_cases h).2 with
  | fetchFault f hf ht => rw [ht, State.raise_cfg]
  | decodeFault bits e hf hd ht => rw [ht, State.raiseDecode_cfg]
  | ran i hi ht => rw [ht, Form.run_cfg]

/-- Settles O20, by the register frame of each form. -/
theorem onlyNamedRegisterChanges : Obligations.OnlyNamedRegisterChanges := by
  intro i s t q h h0 hd
  rw [exec_eq_next_iff.mp h]
  exact Form.run_reg_of_ne h0 (formOf_dest i ▸ hd) s

/-- Settles O22: a fault appends nothing, a form its events, and only a breakpoint has any. -/
theorem notificationsOnlyFromBreak : Obligations.NotificationsOnlyFromBreak := by
  intro s t h
  cases (step_cases h).2 with
  | fetchFault f hf ht => exact .inl (by rw [ht, State.raise_breaks])
  | decodeFault bits e hf hd ht => exact .inl (by rw [ht, State.raiseDecode_breaks])
  | ran i hi ht =>
    have hb : t.breaks = s.breaks ++ (formOf i).events s := by rw [ht, Form.run_breaks]
    obtain he | ⟨he, ⟨ilen, hF⟩, hm⟩ := (formOf i).events_cases s
    · exact .inl (by rw [hb, he, List.append_nil])
    · exact .inr ⟨by rw [hb, he], runs_brk hi hF, hm⟩

/-- Settles O24: fetch and decode do not look at the stream, and each form commutes with replacing it. -/
theorem notificationStreamWriteOnly : Obligations.NotificationStreamWriteOnly := by
  intro s t bs h
  obtain ⟨hr, hs⟩ := step_cases h
  cases hs with
  | fetchFault f hf ht =>
    refine ⟨[], by simp [ht], ?_⟩
    rw [ht, List.append_nil]
    exact step_of_fetch_error (s := s.withBreaks bs) hr hf
  | decodeFault bits e hf hd ht =>
    refine ⟨[], by simp [ht], ?_⟩
    rw [ht, List.append_nil]
    exact step_of_decode_error (s := s.withBreaks bs) hr hf hd
  | ran i hi ht =>
    refine ⟨(formOf i).events s, by rw [ht, Form.run_breaks], ?_⟩
    have hrun := step_of_runs (s := s.withBreaks bs) (i := i) hi
    rwa [Form.run_withBreaks, ← ht] at hrun

/-- Settles O54: the registers by `reg_boot`, the bytes by `read_boot`. -/
theorem resetState : Obligations.ResetState := by
  intro c b hb
  refine ⟨State.reg_boot c b 0, State.reg_boot c b 1, fun r hr => State.reg_boot_of_two_le hr, rfl, rfl, rfl,
    fun i hi => ?_, fun a ha => ?_⟩
  · rw [State.read_boot hb, if_pos (by omega), Nat.add_sub_cancel_left]
  · rw [State.read_boot hb, if_neg (by omega)]

/-- Settles O16: `State.reset` is one of the reset events of O17. -/
theorem resetHasInv : Obligations.ResetHasInv := by
  unfold Obligations.ResetHasInv
  rw [State.reset_eq_boot]
  exact bootHasInv _ _ Config.wf_default Boot.fits_default

/-- Settles O56: `State.reset` is the reset event with the model's choices, so its table is that of O54. -/
theorem modelResetChoices : Obligations.ModelResetChoices := by
  obtain ⟨hpc, hsp, hgpr, hst, -, -, -, hmem⟩ := resetState _ _ Boot.fits_default
  unfold Obligations.ModelResetChoices
  rw [State.reset_eq_boot]
  refine ⟨rfl, hpc, hsp, fun r hr => ?_, fun a => hmem a ?_, hst⟩
  · rw [hgpr r hr]
    exact Vector.getElem_replicate r.isLt
  · exact .inr (Nat.zero_le a)

end Sys2Proof.Machine
end

section
/-! # Memory: the canonical form is unique, and words and half-words read back (spec/20_memory.md R30, R31, R34, R35) -/

namespace Sys2Proof.Machine

/-! ### Uniqueness of the canonical form -/

@[simp] theorem Memory.read_cons_self (k : Nat) (v : Byte) (m : Memory) : Memory.read ((k, v) :: m) k = v := if_pos rfl

theorem Memory.read_cons_of_ne {k a : Nat} (h : a ≠ k) (v : Byte) (m : Memory) :
    Memory.read ((k, v) :: m) a = m.read a := if_neg h

/-- The first listed address is not below that of a canonical memory that reads alike: the byte there would be unlisted. -/
theorem Memory.head_le_of_read_eq {lo lo' k k' : Nat} {v v' : Byte} {m m' : Memory}
    (h : Memory.wfFrom lo ((k, v) :: m) = true) (h' : Memory.wfFrom lo' ((k', v') :: m') = true)
    (hr : ∀ a, Memory.read ((k, v) :: m) a = Memory.read ((k', v') :: m') a) : k' ≤ k := by
  obtain ⟨-, hv, -⟩ := Memory.wfFrom_cons.mp h
  obtain ⟨-, hv', htail'⟩ := Memory.wfFrom_cons.mp h'
  by_contra hlt
  have hfrom : Memory.wfFrom k' ((k', v') :: m') = true := Memory.wfFrom_cons.mpr ⟨le_rfl, hv', htail'⟩
  have hk := hr k
  rw [Memory.read_cons_self, Memory.read_below hfrom (by omega)] at hk
  exact hv hk

theorem Memory.ext_of_wfFrom {lo lo' : Nat} {m m' : Memory} (h : Memory.wfFrom lo m = true)
    (h' : Memory.wfFrom lo' m' = true) (hr : ∀ a, m.read a = m'.read a) : m = m' := by
  induction m generalizing lo lo' m' with
  | nil =>
    cases m' with
    | nil => rfl
    | cons c m' => exact absurd ((hr c.1).trans (Memory.read_cons_self ..)).symm (Memory.wfFrom_cons.mp h').2.1
  | cons c m ih =>
    cases m' with
    | nil => exact absurd ((Memory.read_cons_self ..).symm.trans (hr c.1)) (Memory.wfFrom_cons.mp h).2.1
    | cons c' m' =>
      obtain ⟨k, v⟩ := c
      obtain ⟨k', v'⟩ := c'
      obtain ⟨-, -, htail⟩ := Memory.wfFrom_cons.mp h
      obtain ⟨-, -, htail'⟩ := Memory.wfFrom_cons.mp h'
      obtain rfl : k = k' :=
        le_antisymm (Memory.head_le_of_read_eq h' h fun a => (hr a).symm) (Memory.head_le_of_read_eq h h' hr)
      obtain rfl : v = v' := by simpa using hr k
      have htails : ∀ a, Memory.read m a = Memory.read m' a := by
        intro a
        by_cases ha : a = k
        · have hlt : a < k + 1 := by omega
          rw [Memory.read_below htail hlt, Memory.read_below htail' hlt]
        · simpa [Memory.read_cons_of_ne ha] using hr a
      rw [ih htail htail' htails]

/-! ### Words and half-words (R31) -/

/-- Byte `i` of a word read stands at offset `i`. -/
theorem Memory.byte_readWord (m : Memory) (a i : Nat) (h : i < 4) :
    (m.readWord a).extractLsb' (8 * i) 8 = m.read (a + i) := by
  match i, h with
  | 0, _ => exact field_low ..
  | 1, _ => exact field_mid ..
  | 2, _ => exact field_third ..
  | 3, _ => exact top_of_four ..

/-- Byte `i` of a half-word read stands at offset `i`. -/
theorem Memory.byte_readHalf (m : Memory) (a i : Nat) (h : i < 2) :
    (m.readHalf a).extractLsb' (8 * i) 8 = m.read (a + i) := by
  match i, h with
  | 0, _ => exact field_low ..
  | 1, _ => exact top_of_two ..

/-- A word is its two half-words, the low one at the low address. -/
theorem Memory.readWord_eq_halves (m : Memory) (a : Nat) : m.readWord a = m.readHalf (a + 2) ++ m.readHalf a :=
  BitVec.append_assoc

/-- The bit that tells the length of an instruction is in the first byte of it (R52). -/
theorem Memory.getLsbD_zero_readHalf (m : Memory) (a : Nat) : (m.readHalf a).getLsbD 0 = (m.read a).getLsbD 0 := by
  rw [Memory.readHalf, BitVec.getLsbD_append, if_pos (by omega)]

theorem Memory.readHalf_writeWord {m : Memory} (hm : m.wf = true) (a : Nat) (v : Word) (i : Nat) (h : i < 3) :
    (m.writeWord a v).readHalf (a + i) = v.extractLsb' (8 * i) 16 := by
  rw [Memory.readHalf, Nat.add_assoc, Memory.read_writeWord_inside hm a v (i + 1) (by omega),
    Memory.read_writeWord_inside hm a v i (by omega)]
  exact BitVec.extractLsb'_append_extractLsb'_eq_extractLsb' (by omega)

/-- A word written reads back (R35). -/
theorem Memory.readWord_writeWord {m : Memory} (hm : m.wf = true) (a : Nat) (v : Word) :
    (m.writeWord a v).readWord a = v := by
  rw [Memory.readWord_eq_halves, Memory.readHalf_writeWord hm a v 2 (by omega),
    show (m.writeWord a v).readHalf a = v.extractLsb' 0 16 from Memory.readHalf_writeWord hm a v 0 (by omega),
    BitVec.extractLsb'_append_extractLsb'_eq_extractLsb' (by omega)]
  exact extract_self v

end Sys2Proof.Machine
end

section
/-! # Accesses and fetch: one equation for each case the statements name (R32 to R38, R160, R192) -/

namespace Sys2Proof.Machine

open Sys2Proof.Claims

theorem Config.wf_iff {c : Config} : c.wf = true ↔ 1 ≤ c.memSize ∧ c.memSize ≤ 2 ^ 32 := by simp [Config.wf]

/-! ### The checks of an access -/

theorem State.accessFault_eq_none_iff {s : State} {addr : Word} {n : Nat} {k : Access} :
    s.accessFault addr n k = none ↔ ¬Misaligned s addr n ∧ InRange s addr n := State.accessFault_none

theorem State.accessFault_outOfRange {s : State} {addr : Word} {n : Nat} (k : Access) (hm : ¬Misaligned s addr n)
    (hr : ¬InRange s addr n) : s.accessFault addr n k = some (.memory addr k .outOfRange) :=
  State.accessFault_some.mpr (.inr ⟨hm, Nat.lt_of_not_le hr, rfl⟩)

/-- An access out of range faults whether or not it is misaligned too. -/
theorem State.accessFault_of_not_inRange {s : State} {addr : Word} {n : Nat} (k : Access) (hr : ¬InRange s addr n) :
    ∃ c, s.accessFault addr n k = some (.memory addr k c) := by
  by_cases hm : Misaligned s addr n
  · exact ⟨.misaligned, State.accessFault_some.mpr (.inl ⟨hm.1, hm.2, rfl⟩)⟩
  · exact ⟨.outOfRange, State.accessFault_outOfRange k hm hr⟩

/-- No access runs past the last address, whatever `MEM_SIZE` (R33). -/
theorem not_inRange_of_past_top {s : State} (hc : s.cfg.wf = true) {addr : Word} {n : Nat} (h : 2 ^ 32 < addr.toNat + n) :
    ¬InRange s addr n :=
  fun hr => absurd (hr.trans (Config.wf_iff.mp hc).2) (Nat.not_le_of_lt h)

/-! ### Loads and stores (R160) -/

theorem State.opLoad_of_fault {s : State} {base : Reg} {imm : Word} {f : FaultReport}
    (h : s.accessFault (s.ea base imm) 4 .load = some f) (ilen : Word) (rd : Reg) :
    s.opLoad ilen rd base imm = s.raise f := by
  simp [State.opLoad, State.loadWord, h]

theorem State.opLoad_of_ok {s : State} {base : Reg} {imm : Word} (h : s.accessFault (s.ea base imm) 4 .load = none)
    (ilen : Word) (rd : Reg) :
    s.opLoad ilen rd base imm = s.retire ilen rd (s.mem.readWord (s.ea base imm).toNat) := by
  simp [State.opLoad, State.loadWord, h]

theorem State.opStore_of_fault {s : State} {base : Reg} {imm : Word} {f : FaultReport}
    (h : s.accessFault (s.ea base imm) 4 .store = some f) (ilen : Word) (src : Reg) :
    s.opStore ilen src base imm = s.raise f := by
  simp [State.opStore, State.storeWord, h]

theorem State.opStore_of_ok {s : State} {base : Reg} {imm : Word} (h : s.accessFault (s.ea base imm) 4 .store = none)
    (ilen : Word) (src : Reg) :
    s.opStore ilen src base imm =
      (s.withMem (s.mem.writeWord (s.ea base imm).toNat (s.reg src))).advance ilen := by
  simp [State.opStore, State.storeWord, h]

/-! ### Fetch (R192) -/

theorem State.fetch_of_fault {s : State} {f : FaultReport} (h : s.accessFault s.pc 2 .fetch = some f) :
    s.fetch = .error f := by
  simp [State.fetch, State.readHalf, h]

/-- A standard instruction's second half-word past Memory: the sum is not reduced, the reported address is (R36). -/
theorem State.fetch_of_second_half_out {s : State} (h : s.accessFault s.pc 2 .fetch = none)
    (hb : (s.mem.readHalf s.pc.toNat).getLsbD 0 = false) (hout : ¬InRange s s.pc 4) :
    s.fetch = .error (.memory (s.pc + 2) .fetch .outOfRange) := by
  have hlt : s.cfg.memSize < s.pc.toNat + 4 := Nat.lt_of_not_le hout
  simp only [State.fetch, State.readHalf, h, hb, hlt, if_true, if_false, Bool.false_eq_true]

/-- With four bytes in range a fetch gives the instruction whose length bit 0 tells. -/
theorem State.fetch_of_inRange {s : State} (hc : s.cfg.wf = true) (hm : ¬Misaligned s s.pc 2) (hr : InRange s s.pc 4) :
    s.fetch = .ok (if (s.mem.readHalf s.pc.toNat).getLsbD 0 then .half (s.mem.readHalf s.pc.toNat)
      else .word (s.mem.readWord s.pc.toNat)) := by
  have hsize := (Config.wf_iff.mp hc).2
  have hnext : (s.pc + 2).toNat = s.pc.toNat + 2 := by unfold InRange at hr; bv_omega
  have hfirst : s.accessFault s.pc 2 .fetch = none :=
    State.accessFault_eq_none_iff.mpr ⟨hm, by unfold InRange at *; omega⟩
  have hsecond : s.accessFault (s.pc + 2) 2 .fetch = none :=
    State.accessFault_eq_none_iff.mpr ⟨fun h => hm ⟨h.1, by have := h.2; omega⟩, by unfold InRange at *; omega⟩
  have hin : ¬s.cfg.memSize < s.pc.toNat + 4 := Nat.not_lt_of_le hr
  rw [Memory.readWord_eq_halves, ← hnext]
  simp only [State.fetch, State.readHalf, hfirst, hsecond, hin, if_false]
  split <;> rfl

end Sys2Proof.Machine
end

section
/-! # The opcodes the decoder refuses (spec/30_encoding.md R52, R59, R60) -/

namespace Sys2Proof

open Sys2Proof.Machine

theorem mem_unassignedOpcodes_iff_toNat (op : BitVec 6) :
    op ∈ unassignedOpcodes ↔ op.toNat ∈ [0x00, 0x3e, 0x2f, 0x31, 0x33, 0x35, 0x37, 0x39, 0x3f] := by
  revert op; decide

theorem getLsbD_zero_eq_true_iff (op : BitVec 6) : op.getLsbD 0 = true ↔ op.toNat % 2 = 1 := by
  revert op; decide

/-- Of the odd opcodes the compressed map leaves out exactly the unassigned ones: one case per opcode. -/
theorem decodeHalf_eq_none_iff {h : Half} (hodd : (h.extractLsb' 0 6).getLsbD 0 = true) :
    decodeHalf h = none ↔ h.extractLsb' 0 6 ∈ unassignedOpcodes := by
  have hlt := (h.extractLsb' 0 6).isLt
  rw [getLsbD_zero_eq_true_iff] at hodd
  rw [mem_unassignedOpcodes_iff_toNat]
  unfold decodeHalf
  generalize (h.extractLsb' 0 6).toNat = n at *
  interval_cases n <;> simp at hodd ⊢

/-- Of the even opcodes the standard map leaves out exactly the unassigned ones: one case per opcode. -/
theorem decodeWord_eq_none_iff {w : Word} (heven : (w.extractLsb' 0 6).getLsbD 0 = false) :
    decodeWord w = none ↔ w.extractLsb' 0 6 ∈ unassignedOpcodes := by
  have hlt := (w.extractLsb' 0 6).isLt
  rw [← Bool.not_eq_true, getLsbD_zero_eq_true_iff] at heven
  rw [mem_unassignedOpcodes_iff_toNat]
  unfold decodeWord
  generalize (w.extractLsb' 0 6).toNat = n at *
  interval_cases n <;> simp at heven ⊢

/-- The bits have the length their opcode's parity tells (R52), as those the fetch unit returns do. -/
def InstBits.lengthOk (bits : InstBits) : Prop := bits.opcode.getLsbD 0 = true ↔ bits.ilen = 2

theorem InstBits.lengthOk_half {h : Half} : (InstBits.half h).lengthOk ↔ h.getLsbD 0 = true := by
  simp [InstBits.lengthOk, InstBits.opcode, InstBits.ilen]

theorem InstBits.lengthOk_word {w : Word} : (InstBits.word w).lengthOk ↔ w.getLsbD 0 = false := by
  simp [InstBits.lengthOk, InstBits.opcode, InstBits.ilen]

/-- Bits of the right length are refused exactly for an unassigned opcode, which the error names (R60). -/
theorem decode_eq_error_iff {bits : InstBits} (hlen : bits.lengthOk) {e : DecodeError} :
    decode bits = .error e ↔ bits.opcode ∈ unassignedOpcodes ∧ e = .unassignedOpcode bits.opcode := by
  cases bits with
  | half h =>
    rw [InstBits.opcode, ← decodeHalf_eq_none_iff (hlen.mpr rfl), decode]
    cases decodeHalf h <;> simp [InstBits.opcode, eq_comm]
  | word w =>
    have heven : (w.extractLsb' 0 6).getLsbD 0 = false :=
      Bool.eq_false_of_not_eq_true (mt hlen.mp (show ¬(4 : Word) = 2 by decide))
    rw [InstBits.opcode, ← decodeWord_eq_none_iff heven, decode]
    cases decodeWord w <;> simp [InstBits.opcode, eq_comm]

end Sys2Proof
end

section
/-! # The invariant of the machine: what a form does to Memory, and why the trap state a step leaves is truthful -/

namespace Sys2Proof.Machine

/-! ### Memory after a form -/

/-- The ways an instruction of form `F` can treat Memory, from `s` to `t` (R35, R172): only a store whose check passes and a
system call the host answers touch it. -/
inductive Form.MemEffect (F : Form) (s t : State) : Prop where
  | unchanged (h : t.mem = s.mem)
  | stored (ilen : Word) (src base : Reg) (imm : Word) (hF : F = .store ilen src base imm)
    (hacc : s.accessFault (s.ea base imm) 4 .store = none)
    (h : t.mem = s.mem.writeWord (s.ea base imm).toNat (s.reg src))
  | answered (ilen n : Word) (hF : F = .call ilen n) (hbuf : s.bufferFault n = none) (h : t.mem = s.hostMem n)

theorem Form.run_memEffect (F : Form) (s : State) : F.MemEffect s (F.run s) := by
  cases F with
  | result ilen rd value => exact .unchanged (State.retire_mem ..)
  | branch ilen taken imm => exact .unchanged (State.branch_mem ..)
  | load ilen rd base imm =>
    obtain ⟨f, -, h⟩ | ⟨-, h⟩ := s.opLoad_cases ilen rd base imm <;> exact .unchanged (by simp [Form.run, h])
  | store ilen src base imm =>
    obtain ⟨f, -, h⟩ | ⟨hacc, h⟩ := s.opStore_cases ilen src base imm
    · exact .unchanged (by simp [Form.run, h])
    · exact .stored ilen src base imm rfl hacc (by simp [Form.run, h])
  | call ilen n =>
    obtain ⟨-, h⟩ | ⟨-, h⟩ | ⟨-, -, f, -, h⟩ | ⟨-, -, hbuf, h⟩ := s.syscall_cases ilen n
    · exact .unchanged (by simp [Form.run, h])
    · exact .unchanged (by simp [Form.run, h])
    · exact .unchanged (by simp [Form.run, h])
    · exact .answered ilen n rfl hbuf (by simp [Form.run, h])
  | brk ilen =>
    obtain ⟨-, h⟩ | ⟨-, h⟩ | ⟨-, h⟩ := s.breakpoint_cases ilen <;> exact .unchanged (by simp [Form.run, h])

/-- A form keeps Memory canonical. -/
theorem Form.wf_run_mem (F : Form) {s : State} (hm : s.mem.wf = true) : (F.run s).mem.wf = true := by
  cases F.run_memEffect s with
  | unchanged h => rwa [h]
  | stored ilen src base imm hF hacc h => exact h ▸ Memory.wf_writeWord hm _ _
  | answered ilen n hF hbuf h => exact h ▸ State.wf_hostMem hm n

/-- A form keeps Memory inside `MEM_SIZE` (R30): the checks of the store and of the buffer have passed. -/
theorem Form.below_run_mem (F : Form) {s : State} (hm : s.mem.below s.cfg.memSize = true) :
    (F.run s).mem.below s.cfg.memSize = true := by
  cases F.run_memEffect s with
  | unchanged h => rwa [h]
  | stored ilen src base imm hF hacc h => exact h ▸ Memory.below_writeWord hm _ (State.accessFault_none.mp hacc).2
  | answered ilen n hF hbuf h => exact h ▸ State.below_hostMem hm hbuf

/-! ### The trap state is truthful -/

theorem State.statusOk_of_running {s : State} (h : s.status = .running) : s.statusOk = true := by
  simp [State.statusOk, h]

/-- Raising a MemoryFault leaves the registers and the configuration its report is held to (R226). -/
theorem State.statusOk_raise_memory (s : State) (addr : Word) (k : Access) (c : MemoryCause) :
    (s.raise (.memory addr k c)).statusOk = s.memoryReportOk addr k c := rfl

/-- The report of a load's or a store's fault is truthful (R34, R35). -/
theorem State.statusOk_raise_of_accessFault {s : State} {addr : Word} {k : Access} {f : FaultReport}
    (hk : k = .load ∨ k = .store) (h : s.accessFault addr 4 k = some f) : (s.raise f).statusOk = true := by
  obtain ⟨he, hodd, rfl⟩ | ⟨-, hout, rfl⟩ := State.accessFault_some.mp h
  · obtain rfl | rfl := hk <;> simp [State.statusOk_raise_memory, State.memoryReportOk, he, hodd]
  · obtain rfl | rfl := hk <;> simp [State.statusOk_raise_memory, State.memoryReportOk, hout]

/-- The report of a fetch's fault is truthful: the second half-word is never misaligned when the first is not (R192). -/
theorem State.statusOk_raise_of_fetch {s : State} {f : FaultReport} (h : s.fetch = .error f) :
    (s.raise f).statusOk = true := by
  obtain ⟨g, hg, he⟩ | ⟨-, -, he⟩ | ⟨hfirst, -, ⟨hout, he⟩ | ⟨hin, ⟨g, hg, he⟩ | ⟨-, he⟩⟩⟩ := s.fetch_cases
  · cases he.symm.trans h
    obtain ⟨ha, hodd, rfl⟩ | ⟨-, hout, rfl⟩ := State.accessFault_some.mp hg
    · simpa [State.statusOk_raise_memory, State.memoryReportOk, ha] using hodd
    · simp [State.statusOk_raise_memory, State.memoryReportOk, hout]
  · cases he.symm.trans h
  · cases he.symm.trans h
    simp [State.statusOk_raise_memory, State.memoryReportOk, hout]
  · have hal := (State.accessFault_none.mp hfirst).1
    obtain ⟨ha, hodd, -⟩ | ⟨-, hout, -⟩ := State.accessFault_some.mp hg
    · exact absurd ⟨ha, by bv_omega⟩ hal
    · bv_omega
  · cases he.symm.trans h

/-- The report of a buffer's fault is truthful: pointer and length are two registers (R173). -/
theorem State.statusOk_raise_of_bufferFault {s : State} {n : Word} {f : FaultReport} (h : s.bufferFault n = some f) :
    (s.raise f).statusOk = true := by
  obtain ⟨p, l, hbuf, hl, hout, rfl⟩ := State.bufferFault_some.mp h
  have hregs : (p = s.reg 5 ∧ l = s.reg 6) ∨ (p = s.reg 4 ∧ l = s.reg 5) := by
    unfold State.syscallBuffer at hbuf
    split at hbuf <;> simp_all
  obtain ⟨rfl, rfl⟩ | ⟨rfl, rfl⟩ := hregs
  · simpa [State.statusOk_raise_memory, State.memoryReportOk, hout] using .inl hl
  · simpa [State.statusOk_raise_memory, State.memoryReportOk, hout] using .inr hl

/-- The fetch unit returns bits of the length their parity tells (R52). -/
theorem State.lengthOk_of_fetch {s : State} {bits : InstBits} (h : s.fetch = .ok bits) : bits.lengthOk := by
  obtain ⟨f, -, he⟩ | ⟨-, hb, he⟩ | ⟨-, hb, ⟨-, he⟩ | ⟨-, ⟨f, -, he⟩ | ⟨-, he⟩⟩⟩ := s.fetch_cases
  · cases he.symm.trans h
  · cases he.symm.trans h
    exact InstBits.lengthOk_half.mpr hb
  · cases he.symm.trans h
  · cases he.symm.trans h
  · cases he.symm.trans h
    exact InstBits.lengthOk_word.mpr (by rwa [BitVec.getLsbD_append, if_pos (by omega)])

@[simp] theorem State.raiseDecode_pc (s : State) (bits : InstBits) : (s.raiseDecode bits).pc = s.pc := rfl

/-- The report of a DecodeFault is truthful: the fetched opcode is one of the unassigned ones (R221). -/
theorem State.statusOk_raiseDecode {s : State} {bits : InstBits} {e : DecodeError} (hf : s.fetch = .ok bits)
    (hd : decode bits = .error e) : (s.raiseDecode bits).statusOk = true := by
  have hop := ((decode_eq_error_iff (State.lengthOk_of_fetch hf)).mp hd).1
  simpa [State.statusOk] using hop

/-- A halting breakpoint leaves its own address as the last notification and the program counter past it (R177). -/
theorem State.statusOk_breakpoint {s : State} (hr : s.status = .running) {ilen : Word} (hlen : ilen = 2 ∨ ilen = 4) :
    (s.breakpoint ilen).statusOk = true := by
  obtain ⟨-, h⟩ | ⟨-, h⟩ | ⟨hm, h⟩ := s.breakpoint_cases ilen
  · exact State.statusOk_of_running (by simp [h, hr])
  · exact State.statusOk_of_running (by simp [h, hr])
  · rw [h]
    obtain rfl | rfl := hlen <;> simp [State.statusOk, State.pc_eq, State.reg_advance, hm]

/-- The trap state after an instruction that ran while `Running` is truthful. -/
theorem statusOk_run_formOf (i : Instr) {s : State} (hr : s.status = .running) : ((formOf i).run s).statusOk = true := by
  cases hF : formOf i with
  | result ilen rd value => exact State.statusOk_of_running ((State.retire_status ..).trans hr)
  | branch ilen taken imm => exact State.statusOk_of_running ((State.branch_status ..).trans hr)
  | load ilen rd base imm =>
    obtain ⟨f, hf, h⟩ | ⟨-, h⟩ := s.opLoad_cases ilen rd base imm
    · rw [Form.run, h]
      exact State.statusOk_raise_of_accessFault (.inl rfl) hf
    · exact State.statusOk_of_running (by simp [Form.run, h, hr])
  | store ilen src base imm =>
    obtain ⟨f, hf, h⟩ | ⟨-, h⟩ := s.opStore_cases ilen src base imm
    · rw [Form.run, h]
      exact State.statusOk_raise_of_accessFault (.inr rfl) hf
    · exact State.statusOk_of_running (by simp [Form.run, h, hr])
  | call ilen n =>
    obtain ⟨hn, h⟩ | ⟨-, h⟩ | ⟨-, -, f, hf, h⟩ | ⟨-, -, -, h⟩ := s.syscall_cases ilen n
    · simp [Form.run, h, State.statusOk, hn]
    · simp [Form.run, h, State.statusOk]
    · rw [Form.run, h]
      exact State.statusOk_raise_of_bufferFault hf
    · exact State.statusOk_of_running (by simp [Form.run, h, hr])
  | brk ilen =>
    have hlen : ilen = 2 ∨ ilen = 4 := by
      obtain rfl | rfl := formOf_eq_brk hF <;> cases hF <;> simp
    exact State.statusOk_breakpoint hr hlen

end Sys2Proof.Machine
end

section
/-! # The statements about Memory, its accesses and the invariant (spec/20_memory.md, spec/44_load_store.md) -/

namespace Sys2Proof.Machine

open Sys2Proof.Claims

/-- Settles O47, by induction along both lists. -/
theorem canonicalMemoryIsUnique : Obligations.CanonicalMemoryIsUnique :=
  fun _ _ => Memory.ext_of_wfFrom

/-- Settles O44: reads byte by byte, a word write by its two half-words. -/
theorem littleEndian : Obligations.LittleEndian := by
  intro m a v
  exact ⟨m.byte_readWord a, m.byte_readHalf a, fun hm =>
    ⟨Memory.read_writeWord_inside hm a v, Memory.readHalf_writeWord hm a v 0 (by omega),
      Memory.readHalf_writeWord hm a v 2 (by omega), Memory.readWord_writeWord hm a v⟩⟩

/-- Settles O42: a store that leaves the machine running has written the word, and the load's check is the store's. -/
theorem storeThenLoadReturnsValue : Obligations.StoreThenLoadReturnsValue := by
  intro s t src base rd base' imm imm' hm hexec hrun hea hrd
  have ht : t = s.opStore 4 src base imm := exec_eq_next_iff.mp hexec
  obtain ⟨f, -, hst⟩ | ⟨hacc, hst⟩ := s.opStore_cases 4 src base imm
  · simp [ht.trans hst] at hrun
  · replace ht := ht.trans hst
    have hcfg : t.cfg = s.cfg := by simp [ht]
    have hea' : t.ea base' imm' = s.ea base imm := hea
    have hload : t.accessFault (t.ea base' imm') 4 .load = none := by
      rw [State.accessFault_none] at hacc ⊢
      rwa [hcfg, hea']
    have hword : t.mem.readWord (t.ea base' imm').toNat = s.reg src := by
      rw [hea', ht, State.advance_mem, State.withMem_mem, Memory.readWord_writeWord hm]
    have hu : exec (.load rd base' imm') t = .next (t.retire 4 rd (s.reg src)) := by
      rw [← hword, ← State.opLoad_of_ok hload]
      exact exec_eq_run ..
    exact ⟨_, hu, by simp [State.reg_retire, hrd], by simpa using hrun⟩

/-- Settles O43: after the store the program counter is its address, and the fetch there reads the word back. -/
theorem nextFetchSeesStore : Obligations.NextFetchSeesStore := by
  intro s t src base imm hc hm hnext hal hr hexec
  have hacc : s.accessFault (s.ea base imm) 4 .store = none := State.accessFault_eq_none_iff.mpr ⟨hal, hr⟩
  have ht : t = _ := (exec_eq_next_iff.mp hexec).trans (State.opStore_of_ok hacc 4 src)
  have hcfg : t.cfg = s.cfg := by simp [ht]
  have hpc : t.pc = s.reg base + imm := by rw [hnext, State.pc_eq, ht, State.reg_advance]; rfl
  have hmem : t.mem = s.mem.writeWord t.pc.toNat (s.reg src) := by
    rw [hpc, ht, State.advance_mem, State.withMem_mem]
    rfl
  have hal' : ¬Misaligned t t.pc 2 := by
    rw [hpc]
    rintro ⟨he, hodd⟩
    exact hal ⟨hcfg ▸ he, by omega⟩
  have hr' : InRange t t.pc 4 := by rwa [InRange, hcfg, hpc]
  have hhalf : t.mem.readHalf t.pc.toNat = (s.reg src).extractLsb' 0 16 := by
    rw [hmem]
    exact Memory.readHalf_writeWord hm _ _ 0 (by omega)
  have hword : t.mem.readWord t.pc.toNat = s.reg src := by rw [hmem, Memory.readWord_writeWord hm]
  have hbit : ((s.reg src).extractLsb' 0 16).getLsbD 0 = (s.reg src).getLsbD 0 := by
    simp
  rw [State.fetch_of_inRange (hcfg ▸ hc) hal' hr', hhalf, hword, hbit]

/-- Settles O45: an access that runs past the last address is out of range, and so raises its fault. -/
theorem noWrapInsideAccess : Obligations.NoWrapInsideAccess := by
  intro s hc
  refine ⟨fun rd base imm htop => ?_, fun hrun hpc => ?_, fun hrun htop _ hsize hal hbit => ?_⟩
  · have hout : ¬InRange s (s.ea base imm) 4 := not_inRange_of_past_top hc (by unfold State.ea; omega)
    obtain ⟨c, hload⟩ := State.accessFault_of_not_inRange .load hout
    obtain ⟨c', hstore⟩ := State.accessFault_of_not_inRange .store hout
    exact ⟨⟨c, congrArg Host.Outcome.next (State.opLoad_of_fault hload 4 rd)⟩,
      ⟨c, congrArg Host.Outcome.next (State.opLoad_of_fault hload 2 rd)⟩,
      ⟨c', congrArg Host.Outcome.next (State.opStore_of_fault hstore 4 rd)⟩,
      ⟨c', congrArg Host.Outcome.next (State.opStore_of_fault hstore 2 rd)⟩⟩
  · have hout : ¬InRange s s.pc 2 := not_inRange_of_past_top hc (by rw [hpc]; decide)
    obtain ⟨c, hfetch⟩ := State.accessFault_of_not_inRange .fetch hout
    exact ⟨c, hpc ▸ step_of_fetch_error hrun (State.fetch_of_fault hfetch)⟩
  · have hin : InRange s s.pc 2 := by unfold InRange; bv_omega
    have hout : ¬InRange s s.pc 4 := not_inRange_of_past_top hc (by omega)
    rw [← Memory.getLsbD_zero_readHalf] at hbit
    exact step_of_fetch_error hrun
      (State.fetch_of_second_half_out (State.accessFault_eq_none_iff.mpr ⟨hal, hin⟩) hbit hout)

/-- Settles O46: the last word of the address space ends at `2^32`, and its address is a multiple of 4. -/
theorem resetStackPointerNeedsFullMemory : Obligations.ResetStackPointerNeedsFullMemory := by
  intro s r hc hsp
  have hle := (Config.wf_iff.mp hc).2
  have hrange : InRange s 0xfffffffc 4 ↔ s.cfg.memSize = 2 ^ 32 :=
    show 2 ^ 32 ≤ s.cfg.memSize ↔ s.cfg.memSize = 2 ^ 32 by omega
  have hea : s.ea 1 0 = 0xfffffffc := by simp [State.ea, hsp]
  have hal : ¬Misaligned s 0xfffffffc 4 := fun h => h.2 (by decide)
  refine ⟨hsp ▸ hrange, fun hsmall => ?_, fun hfull => ?_⟩
  · have hfault := State.accessFault_outOfRange .store hal (mt hrange.mp hsmall)
    exact congrArg Host.Outcome.next (State.opStore_of_fault (hea ▸ hfault) 4 r)
  · have hok : s.accessFault (s.ea 1 0) 4 .store = none :=
      State.accessFault_eq_none_iff.mpr (hea ▸ ⟨hal, hrange.mpr hfull⟩)
    exact ⟨_, congrArg Host.Outcome.next (State.opStore_of_ok hok 4 r), by simp⟩

/-- Settles O15: a fault changes only the trap state and its report is truthful; an instruction keeps the configuration and
Memory's form and bound, and its trap state is truthful form by form. -/
theorem stepKeepsInv : Obligations.StepKeepsInv := by
  rintro s t ⟨hc, hwf, hbelow, -⟩ h
  obtain ⟨hr, hs⟩ := step_cases h
  cases hs with
  | fetchFault f hf ht => exact ht ▸ ⟨hc, hwf, hbelow, State.statusOk_raise_of_fetch hf⟩
  | decodeFault bits e hf hd ht => exact ht ▸ ⟨hc, hwf, hbelow, State.statusOk_raiseDecode hf hd⟩
  | ran i hi ht =>
    subst ht
    refine ⟨?_, (formOf i).wf_run_mem hwf, ?_, statusOk_run_formOf i hr⟩
    · rwa [Form.run_cfg]
    · rw [Form.run_cfg]
      exact (formOf i).below_run_mem hbelow

end Sys2Proof.Machine
end

section
/-! # Reading an encoding back: the operands the decoder takes fit their fields, and laying them out again gives the word's used
bits (spec/30_encoding.md R54, R55, R57, R58, R61) -/

namespace Sys2Proof

/-! ### The operands the decoder reads have the fields they were read from -/

theorem extract_signExtend_low {k n : Nat} (x : BitVec k) (h : k ≤ n) : (x.signExtend n).extractLsb' 0 k = x := by
  ext i hi
  have hin : i < n := by omega
  rw [BitVec.getElem_extractLsb', Nat.zero_add, BitVec.getLsbD_signExtend]
  simp [hin, hi]

theorem extract_setWidth_low {k n : Nat} (x : BitVec k) (h : k ≤ n) : (x.setWidth n).extractLsb' 0 k = x := by
  rw [BitVec.extractLsb'_setWidth_of_le (by omega), extract_self]

theorem extract_setWidth_high {k n lo len : Nat} (x : BitVec k) (h : k ≤ lo) : (x.setWidth n).extractLsb' lo len = 0#len := by
  ext i hi
  have hout : x.getLsbD (lo + i) = false := BitVec.getLsbD_of_ge x _ (by omega)
  simp [BitVec.getElem_extractLsb', BitVec.getLsbD_setWidth, hout]

theorem sel5_reg5 {k : Nat} (b : BitVec k) (lo : Nat) : sel5 (reg5 b lo) = b.extractLsb' lo 5 := rfl

theorem sel3_reg3 (h : Half) (lo : Nat) : sel3 (reg3 h lo) = h.extractLsb' lo 3 :=
  BitVec.setWidth_setWidth_of_le (h.extractLsb' lo 3) (by decide)

theorem imm16_field (w : Word) : (imm16 w).extractLsb' 0 16 = w.extractLsb' 16 16 := extract_signExtend_low _ (by decide)
theorem upper16_field (w : Word) : (upper16 w).extractLsb' 16 16 = w.extractLsb' 16 16 := top_of_two ..
theorem number16_field (w : Word) : (number16 w).extractLsb' 0 16 = w.extractLsb' 16 16 := extract_setWidth_low _ (by decide)
theorem imm7_field (h : Half) : (imm7 h).extractLsb' 0 7 = h.extractLsb' 9 7 := extract_signExtend_low _ (by decide)
theorem imm4_field (h : Half) : (imm4 h).extractLsb' 0 4 = h.extractLsb' 12 4 := extract_signExtend_low _ (by decide)
theorem number7_field (h : Half) : (number7 h).extractLsb' 0 7 = h.extractLsb' 9 7 := extract_setWidth_low _ (by decide)

theorem upper7_field (h : Half) : (upper7 h).extractLsb' 16 7 = h.extractLsb' 9 7 :=
  (extract_append_high _ _ _ _ (le_refl 16)).trans (extract_setWidth_low _ (by decide))

/-! ### They are values their fields admit (R57, R58) -/

theorem primed_reg3 (h : Half) (lo : Nat) : primed (reg3 h lo) = true := by
  unfold reg3
  generalize h.extractLsb' lo 3 = selector
  revert selector; decide

theorem fitsSigned16_imm16 (w : Word) : fitsSigned16 (imm16 w) = true := by
  rw [fitsSigned16, imm16_field]; exact beq_self_eq_true (imm16 w)

theorem fitsSigned7_imm7 (h : Half) : fitsSigned7 (imm7 h) = true := by
  rw [fitsSigned7, imm7_field]; exact beq_self_eq_true (imm7 h)

theorem fitsSigned4_imm4 (h : Half) : fitsSigned4 (imm4 h) = true := by
  rw [fitsSigned4, imm4_field]; exact beq_self_eq_true (imm4 h)

theorem fitsUpper16_upper16 (w : Word) : fitsUpper16 (upper16 w) = true := by
  rw [fitsUpper16, upper16, field_low]; rfl

theorem fitsUpper7_upper7 (h : Half) : fitsUpper7 (upper7 h) = true := by
  rw [fitsUpper7, upper7, field_low, extract_append_high _ _ _ _ (by decide), extract_setWidth_high _ (by decide)]; rfl

theorem fitsNumber16_number16 (w : Word) : fitsNumber16 (number16 w) = true := by
  rw [fitsNumber16, number16, extract_setWidth_high _ (by decide)]; rfl

theorem fitsNumber7_number7 (h : Half) : fitsNumber7 (number7 h) = true := by
  rw [fitsNumber7, number7, extract_setWidth_high _ (by decide)]; rfl

/-! ### The used bits as fields: where the mask has ones the field stays, where it has zeros the field is zero -/

theorem extract_and_ones {n lo len : Nat} (x : BitVec n) {m : BitVec n} (h : m.extractLsb' lo len = BitVec.allOnes len) :
    (x &&& m).extractLsb' lo len = x.extractLsb' lo len := by
  rw [BitVec.extractLsb'_and, h, BitVec.and_allOnes]

theorem extract_and_zero {n lo len : Nat} (x : BitVec n) {m : BitVec n} (h : m.extractLsb' lo len = 0#len) :
    (x &&& m).extractLsb' lo len = 0#len := by
  rw [BitVec.extractLsb'_and, h, BitVec.and_zero]

/-- The fields of formats I, S and U. -/
theorem word_fields (w : Word) :
    w.extractLsb' 16 16 ++ w.extractLsb' 11 5 ++ w.extractLsb' 6 5 ++ w.extractLsb' 0 6 = w := by
  simp (disch := decide) only [BitVec.extractLsb'_append_extractLsb'_eq_extractLsb']
  exact extract_self w

/-- The fields of format R. -/
theorem word_fields_r (w : Word) :
    w.extractLsb' 21 11 ++ w.extractLsb' 16 5 ++ w.extractLsb' 11 5 ++ w.extractLsb' 6 5 ++ w.extractLsb' 0 6 = w := by
  simp (disch := decide) only [BitVec.extractLsb'_append_extractLsb'_eq_extractLsb']
  exact extract_self w

/-- The fields of format SYS. -/
theorem word_fields_sys (w : Word) : w.extractLsb' 16 16 ++ w.extractLsb' 6 10 ++ w.extractLsb' 0 6 = w := by
  simp (disch := decide) only [BitVec.extractLsb'_append_extractLsb'_eq_extractLsb']
  exact extract_self w

/-- The fields of format CR. -/
theorem half_fields_cr (h : Half) : h.extractLsb' 11 5 ++ h.extractLsb' 6 5 ++ h.extractLsb' 0 6 = h := by
  simp (disch := decide) only [BitVec.extractLsb'_append_extractLsb'_eq_extractLsb']
  exact extract_self h

/-- The fields of formats CI, CU and CSYS. -/
theorem half_fields (h : Half) : h.extractLsb' 9 7 ++ h.extractLsb' 6 3 ++ h.extractLsb' 0 6 = h := by
  simp (disch := decide) only [BitVec.extractLsb'_append_extractLsb'_eq_extractLsb']
  exact extract_self h

/-- The fields of formats CL and CS. -/
theorem half_fields_cs (h : Half) :
    h.extractLsb' 12 4 ++ h.extractLsb' 9 3 ++ h.extractLsb' 6 3 ++ h.extractLsb' 0 6 = h := by
  simp (disch := decide) only [BitVec.extractLsb'_append_extractLsb'_eq_extractLsb']
  exact extract_self h

/-- Format I with no `rs1`, format S with no `rs2`, format U: the selector at bit 11 is dropped. -/
theorem word_fields_one_selector (w : Word) :
    w.extractLsb' 16 16 ++ 0#5 ++ w.extractLsb' 6 5 ++ w.extractLsb' 0 6 = w &&& 0xffff07ff := by
  rw [← word_fields (w &&& 0xffff07ff)]
  simp (disch := decide) only [extract_and_ones, extract_and_zero]

/-- A format that uses every bit. -/
theorem word_and_all (w : Word) : w &&& 0xffffffff = w := BitVec.and_allOnes
theorem half_and_all (h : Half) : h &&& 0xffff = h := BitVec.and_allOnes

/-! ### The layouts of the operands read from a word are its used bits (R54, R61) -/

section
variable {w : Word} {op : BitVec 6} (hop : (w.extractLsb' 0 6).toNat = op.toNat)
include hop

theorem layoutR_read : layoutR op (reg5 w 6) (reg5 w 11) (reg5 w 16) = w &&& 0x001fffff := by
  obtain rfl := BitVec.eq_of_toNat_eq hop
  rw [← word_fields_r (w &&& 0x001fffff)]
  simp (disch := decide) only [extract_and_ones, extract_and_zero]
  rfl

theorem layoutI_read : layoutI op (reg5 w 6) (reg5 w 11) (imm16 w) = w &&& 0xffffffff := by
  obtain rfl := BitVec.eq_of_toNat_eq hop
  rw [layoutI, imm16_field, word_and_all]
  exact word_fields w

theorem layoutI_read_rd : layoutI op (reg5 w 6) 0 (imm16 w) = w &&& 0xffff07ff := by
  obtain rfl := BitVec.eq_of_toNat_eq hop
  rw [layoutI, imm16_field]
  exact word_fields_one_selector w

theorem layoutS_read : layoutS op (reg5 w 6) (reg5 w 11) (imm16 w) = w &&& 0xffffffff := by
  obtain rfl := BitVec.eq_of_toNat_eq hop
  rw [layoutS, imm16_field, word_and_all]
  exact word_fields w

theorem layoutS_read_rs1 : layoutS op (reg5 w 6) 0 (imm16 w) = w &&& 0xffff07ff := by
  obtain rfl := BitVec.eq_of_toNat_eq hop
  rw [layoutS, imm16_field]
  exact word_fields_one_selector w

theorem layoutU_read : layoutU op (reg5 w 6) (upper16 w) = w &&& 0xffff07ff := by
  obtain rfl := BitVec.eq_of_toNat_eq hop
  rw [layoutU, upper16_field]
  exact word_fields_one_selector w

theorem layoutSys_read : layoutSys op (number16 w) = w &&& 0xffff003f := by
  obtain rfl := BitVec.eq_of_toNat_eq hop
  rw [layoutSys, number16_field, ← word_fields_sys (w &&& 0xffff003f)]
  simp (disch := decide) only [extract_and_ones, extract_and_zero]

theorem layoutSys_read_opcode : layoutSys op 0 = w &&& 0x0000003f := by
  obtain rfl := BitVec.eq_of_toNat_eq hop
  rw [← word_fields_sys (w &&& 0x0000003f)]
  simp (disch := decide) only [extract_and_ones, extract_and_zero]
  rfl

end

/-! ### The layouts of the operands read from a half-word are its used bits (R55, R61) -/

section
variable {h : Half} {op : BitVec 6} (hop : (h.extractLsb' 0 6).toNat = op.toNat)
include hop

theorem layoutCR_read : layoutCR op (reg5 h 6) (reg5 h 11) = h &&& 0xffff := by
  obtain rfl := BitVec.eq_of_toNat_eq hop
  rw [half_and_all]
  exact half_fields_cr h

theorem layoutCI_read : layoutCI op (reg3 h 6) (imm7 h) = h &&& 0xffff := by
  obtain rfl := BitVec.eq_of_toNat_eq hop
  rw [layoutCI, half_and_all, imm7_field, sel3_reg3]
  exact half_fields h

theorem layoutCU_read : layoutCU op (reg3 h 6) (upper7 h) = h &&& 0xffff := by
  obtain rfl := BitVec.eq_of_toNat_eq hop
  rw [layoutCU, half_and_all, upper7_field, sel3_reg3]
  exact half_fields h

theorem layoutCL_read : layoutCL op (reg3 h 6) (reg3 h 9) (imm4 h) = h &&& 0xffff := by
  obtain rfl := BitVec.eq_of_toNat_eq hop
  rw [layoutCL, half_and_all, imm4_field, sel3_reg3, sel3_reg3]
  exact half_fields_cs h

theorem layoutCS_read : layoutCS op (reg3 h 6) (reg3 h 9) (imm4 h) = h &&& 0xffff := by
  obtain rfl := BitVec.eq_of_toNat_eq hop
  rw [layoutCS, half_and_all, imm4_field, sel3_reg3, sel3_reg3]
  exact half_fields_cs h

theorem layoutCS_read_rs1 : layoutCS op (reg3 h 6) 0 (imm4 h) = h &&& 0xf1ff := by
  obtain rfl := BitVec.eq_of_toNat_eq hop
  rw [layoutCS, imm4_field, sel3_reg3, ← half_fields_cs (h &&& 0xf1ff)]
  simp (disch := decide) only [extract_and_ones, extract_and_zero]
  rfl

theorem layoutCSys_read : layoutCSys op (number7 h) = h &&& 0xfe3f := by
  obtain rfl := BitVec.eq_of_toNat_eq hop
  rw [layoutCSys, number7_field, ← half_fields (h &&& 0xfe3f)]
  simp (disch := decide) only [extract_and_ones, extract_and_zero]

theorem layoutCSys_read_opcode : layoutCSys op 0 = h &&& 0x003f := by
  obtain rfl := BitVec.eq_of_toNat_eq hop
  rw [← half_fields (h &&& 0x003f)]
  simp (disch := decide) only [extract_and_ones, extract_and_zero]
  rfl

end

end Sys2Proof
end

section
/-! # The decoder and the encoder are inverse to each other up to the don't-care bits (spec/30_encoding.md R51 to R63) -/

namespace Sys2Proof

open Sys2Proof.Machine Sys2Proof.Claims

/-! ### Encoding, then decoding -/

/-- Decoding gives back the instruction encoded, format by format: each field of the layout is read back, the immediate and
the primed selectors because they fit. -/
theorem decode_encode {i : Instr} (h : i.wellFormed = true) : decode (encode i) = .ok i := by
  cases i with
  | add | sub | and | or | xor | sll | srl | sra =>
    simp [encode, decode, decodeWord, layoutR_opcode, layoutR_rd, layoutR_rs1, layoutR_rs2]
  | addi | subi | andi | ori | xori | slli | srli | srai | load =>
    simp [encode, decode, decodeWord, layoutI_opcode, layoutI_rd, layoutI_rs1, layoutI_imm _ _ _ _ h]
  | li => simp [encode, decode, decodeWord, layoutI_opcode, layoutI_rd, layoutI_imm _ _ _ _ h]
  | store | beq | bne | blt | bge | bltu | bgeu =>
    simp [encode, decode, decodeWord, layoutS_opcode, layoutS_rs1, layoutS_rs2, layoutS_imm _ _ _ _ h]
  | bez | bnz => simp [encode, decode, decodeWord, layoutS_opcode, layoutS_rs1, layoutS_imm _ _ _ _ h]
  | lui => simp [encode, decode, decodeWord, layoutU_opcode, layoutU_rd, layoutU_imm _ _ _ h]
  | call => simp [encode, decode, decodeWord, layoutSys_opcode, layoutSys_number _ _ h]
  | brk => simp [encode, decode, decodeWord, layoutSys_opcode]
  | cMv | cAdd | cSub | cAnd | cOr | cXor | cSll | cSrl | cSra =>
    simp [encode, decode, decodeHalf, layoutCR_opcode, layoutCR_rd, layoutCR_rs2]
  | cAddi | cSubi | cAndi | cOri | cXori | cSlli | cSrli | cSrai | cLi =>
    obtain ⟨hrd, himm⟩ := Bool.and_eq_true_iff.mp h
    simp [encode, decode, decodeHalf, layoutCI_opcode, layoutCI_rd _ _ _ hrd, layoutCI_imm _ _ _ himm]
  | cLui =>
    obtain ⟨hrd, himm⟩ := Bool.and_eq_true_iff.mp h
    simp [encode, decode, decodeHalf, layoutCU_opcode, layoutCU_rd _ _ _ hrd, layoutCU_imm _ _ _ himm]
  | cLoad =>
    obtain ⟨hregs, himm⟩ := Bool.and_eq_true_iff.mp h
    obtain ⟨hrd, hrs1⟩ := Bool.and_eq_true_iff.mp hregs
    simp [encode, decode, decodeHalf, layoutCL_opcode, layoutCL_rd _ _ _ _ hrd, layoutCL_rs1 _ _ _ _ hrs1,
      layoutCL_imm _ _ _ _ himm]
  | cStore =>
    obtain ⟨hregs, himm⟩ := Bool.and_eq_true_iff.mp h
    obtain ⟨hrs1, hrs2⟩ := Bool.and_eq_true_iff.mp hregs
    simp [encode, decode, decodeHalf, layoutCS_opcode, layoutCS_rs1 _ _ _ _ hrs1, layoutCS_rs2 _ _ _ _ hrs2,
      layoutCS_imm _ _ _ _ himm]
  | cBez | cBnz =>
    obtain ⟨hrs1, himm⟩ := Bool.and_eq_true_iff.mp h
    simp [encode, decode, decodeHalf, layoutCS_opcode, layoutCS_rs1 _ _ _ _ hrs1, layoutCS_imm _ _ _ _ himm]
  | cCall => simp [encode, decode, decodeHalf, layoutCSys_opcode, layoutCSys_number _ _ h]
  | cBrk => simp [encode, decode, decodeHalf, layoutCSys_opcode]

/-! ### The length of an encoding (R52) -/

theorem encodedLength (i : Instr) : Laws.EncodedLength.Statement i := by
  cases i with
  | add | sub | and | or | xor | sll | srl | sra | addi | subi | andi | ori | xori | slli | srli | srai | li | lui | load
  | store | bez | bnz | beq | bne | blt | bge | bltu | bgeu | call | brk =>
    exact Laws.EncodedLength.of_word _ _ _ rfl rfl rfl rfl
  | cMv | cAdd | cSub | cAnd | cOr | cXor | cSll | cSrl | cSra | cAddi | cSubi | cAndi | cOri | cXori | cSlli | cSrli
  | cSrai | cLi | cLui | cLoad | cStore | cBez | cBnz | cCall | cBrk =>
    exact Laws.EncodedLength.of_half _ _ _ rfl rfl rfl rfl

theorem lengthOk_encode (i : Instr) : (encode i).lengthOk := by
  obtain ⟨hlen, hop, hparity⟩ := encodedLength i
  rw [InstBits.lengthOk, hlen, hop, hparity]
  cases i.opcode.getLsbD 0 <;> decide

/-- The byte decoder takes off the bytes of bits whose length their parity tells, and decodes them. -/
theorem decodeBytes_append {bits : InstBits} (hlen : bits.lengthOk) (rest : List Byte) :
    decodeBytes (bits.bytes ++ rest) = (decode bits).map (·, rest) := by
  cases bits with
  | half h =>
    have hbit : (h.extractLsb' 0 8).getLsbD 0 = true := by simpa using InstBits.lengthOk_half.mp hlen
    have hjoin : halfOf (h.extractLsb' 0 8) (h.extractLsb' 8 8) = h :=
      (BitVec.extractLsb'_append_extractLsb'_eq_extractLsb' rfl).trans (extract_self h)
    simp only [InstBits.bytes, List.cons_append, List.nil_append, decodeBytes, hbit, if_true, hjoin]
  | word w =>
    have hbit : (w.extractLsb' 0 8).getLsbD 0 = false := by simpa using InstBits.lengthOk_word.mp hlen
    have hjoin : halfOf (w.extractLsb' 16 8) (w.extractLsb' 24 8) ++ halfOf (w.extractLsb' 0 8) (w.extractLsb' 8 8) = w := by
      simp (disch := decide) only [halfOf, BitVec.extractLsb'_append_extractLsb'_eq_extractLsb']
      exact extract_self w
    simp only [InstBits.bytes, List.cons_append, List.nil_append, decodeBytes, hbit, if_false, Bool.false_eq_true, hjoin]

/-! ### Decoding, then encoding -/

theorem field_toNat {k : Nat} (b : BitVec k) (lo len : Nat) : field b.toNat lo len = (b.extractLsb' lo len).toNat := by
  rw [field, BitVec.extractLsb'_toNat, Nat.shiftRight_eq_div_pow]

/-- The bits with zero in every one that the opcode's format does not use (R61). -/
def InstBits.clearUnused : InstBits → InstBits
  | .half h => .half (h &&& usedHalf (h.extractLsb' 0 6).toNat)
  | .word w => .word (w &&& usedWord (w.extractLsb' 0 6).toNat)

@[simp] theorem InstBits.ilen_clearUnused (bits : InstBits) : bits.clearUnused.ilen = bits.ilen := by
  cases bits <;> rfl

/-- The opcode is used whatever it is. -/
theorem extract_opcode_and_usedWord (w : Word) (op : Nat) : (w &&& usedWord op).extractLsb' 0 6 = w.extractLsb' 0 6 := by
  refine extract_and_ones w ?_
  unfold usedWord
  split_ifs <;> rfl

theorem extract_opcode_and_usedHalf (h : Half) (op : Nat) : (h &&& usedHalf op).extractLsb' 0 6 = h.extractLsb' 0 6 := by
  refine extract_and_ones h ?_
  unfold usedHalf
  split_ifs <;> rfl

@[simp] theorem InstBits.opcode_clearUnused (bits : InstBits) : bits.clearUnused.opcode = bits.opcode := by
  cases bits with
  | half h => exact extract_opcode_and_usedHalf h _
  | word w => exact extract_opcode_and_usedWord w _

/-- A standard instruction decoded is well-formed and encodes to the used bits of its word: one case per row of the opcode
map, in its order, by the layout of the row's format. -/
theorem wellFormed_encode_of_decodeWord {w : Word} {i : Instr} (h : decodeWord w = some i) :
    i.wellFormed = true ∧ encode i = (InstBits.word w).clearUnused := by
  unfold decodeWord at h
  simp only [InstBits.clearUnused]
  generalize hop : (w.extractLsb' 0 6).toNat = op at h ⊢
  split at h <;> simp only [Option.some.injEq, reduceCtorEq] at h <;> subst h
  -- ADD to SRA
  case h_1 | h_2 | h_3 | h_4 | h_5 | h_6 | h_7 | h_8 => exact ⟨rfl, congrArg InstBits.word (layoutR_read hop)⟩
  -- ADDI to SRAI, LOAD
  case h_9 | h_10 | h_11 | h_12 | h_13 | h_14 | h_15 | h_16 | h_19 =>
    exact ⟨fitsSigned16_imm16 w, congrArg InstBits.word (layoutI_read hop)⟩
  -- LI
  case h_17 => exact ⟨fitsSigned16_imm16 w, congrArg InstBits.word (layoutI_read_rd hop)⟩
  -- LUI
  case h_18 => exact ⟨fitsUpper16_upper16 w, congrArg InstBits.word (layoutU_read hop)⟩
  -- STORE, BEQ to BGE.U
  case h_20 | h_23 | h_24 | h_25 | h_26 | h_27 | h_28 =>
    exact ⟨fitsSigned16_imm16 w, congrArg InstBits.word (layoutS_read hop)⟩
  -- BEZ, BNZ
  case h_21 | h_22 => exact ⟨fitsSigned16_imm16 w, congrArg InstBits.word (layoutS_read_rs1 hop)⟩
  -- CALL
  case h_29 => exact ⟨fitsNumber16_number16 w, congrArg InstBits.word (layoutSys_read hop)⟩
  -- BREAK
  case h_30 => exact ⟨rfl, congrArg InstBits.word (layoutSys_read_opcode hop)⟩

/-- The same for a compressed instruction and its half-word. -/
theorem wellFormed_encode_of_decodeHalf {h : Half} {i : Instr} (hdec : decodeHalf h = some i) :
    i.wellFormed = true ∧ encode i = (InstBits.half h).clearUnused := by
  have hrd := primed_reg3 h 6
  have hrs := primed_reg3 h 9
  have himm4 := fitsSigned4_imm4 h
  unfold decodeHalf at hdec
  simp only [InstBits.clearUnused]
  generalize hop : (h.extractLsb' 0 6).toNat = op at hdec ⊢
  split at hdec <;> simp only [Option.some.injEq, reduceCtorEq] at hdec <;> subst hdec
  -- C.MV to C.SRA
  case h_1 | h_2 | h_3 | h_4 | h_5 | h_6 | h_7 | h_8 | h_9 => exact ⟨rfl, congrArg InstBits.half (layoutCR_read hop)⟩
  -- C.ADDI to C.LI
  case h_10 | h_11 | h_12 | h_13 | h_14 | h_15 | h_16 | h_17 | h_18 =>
    exact ⟨Bool.and_eq_true_iff.mpr ⟨hrd, fitsSigned7_imm7 h⟩, congrArg InstBits.half (layoutCI_read hop)⟩
  -- C.LUI
  case h_19 => exact ⟨Bool.and_eq_true_iff.mpr ⟨hrd, fitsUpper7_upper7 h⟩, congrArg InstBits.half (layoutCU_read hop)⟩
  -- C.LOAD
  case h_20 => exact ⟨by simp [Instr.wellFormed, hrd, hrs, himm4], congrArg InstBits.half (layoutCL_read hop)⟩
  -- C.STORE
  case h_21 => exact ⟨by simp [Instr.wellFormed, hrd, hrs, himm4], congrArg InstBits.half (layoutCS_read hop)⟩
  -- C.BEZ, C.BNZ
  case h_22 | h_23 => exact ⟨Bool.and_eq_true_iff.mpr ⟨hrd, himm4⟩, congrArg InstBits.half (layoutCS_read_rs1 hop)⟩
  -- C.CALL
  case h_24 => exact ⟨fitsNumber7_number7 h, congrArg InstBits.half (layoutCSys_read hop)⟩
  -- C.BREAK
  case h_25 => exact ⟨rfl, congrArg InstBits.half (layoutCSys_read_opcode hop)⟩

theorem decode_half_eq_ok_iff {h : Half} {i : Instr} : decode (.half h) = .ok i ↔ decodeHalf h = some i := by
  rw [decode]; cases decodeHalf h <;> simp

theorem decode_word_eq_ok_iff {w : Word} {i : Instr} : decode (.word w) = .ok i ↔ decodeWord w = some i := by
  rw [decode]; cases decodeWord w <;> simp

/-- An instruction decoded is well-formed and encodes to the used bits of what it was decoded from. -/
theorem wellFormed_encode_of_decode {bits : InstBits} {i : Instr} (h : decode bits = .ok i) :
    i.wellFormed = true ∧ encode i = bits.clearUnused := by
  cases bits with
  | half _ => exact wellFormed_encode_of_decodeHalf (decode_half_eq_ok_iff.mp h)
  | word _ => exact wellFormed_encode_of_decodeWord (decode_word_eq_ok_iff.mp h)

/-- Bits of the right length with an assigned opcode decode (R59). -/
theorem exists_decode_eq_ok {bits : InstBits} (hlen : bits.lengthOk) (hop : Assigned bits.opcode) :
    ∃ i, decode bits = .ok i := by
  cases hdec : decode bits with
  | ok i => exact ⟨i, rfl⟩
  | error e => exact absurd ((decode_eq_error_iff hlen).mp hdec).1 hop

/-- Bits with the same used bits have the same opcode and length, so both decode; the two instructions have one encoding, and
are well-formed, so they are one instruction (R61). -/
theorem decode_eq_of_clearUnused_eq {bits bits' : InstBits} (hlen : bits.lengthOk) (hop : Assigned bits.opcode)
    (h : bits.clearUnused = bits'.clearUnused) :
    ∃ i, decode bits = .ok i ∧ decode bits' = .ok i ∧ encode i = bits.clearUnused := by
  have hopcode : bits.opcode = bits'.opcode := by simpa using congrArg InstBits.opcode h
  have hilen : bits.ilen = bits'.ilen := by simpa using congrArg InstBits.ilen h
  have hlen' : bits'.lengthOk := by rwa [InstBits.lengthOk, ← hopcode, ← hilen]
  obtain ⟨i, hi⟩ := exists_decode_eq_ok hlen hop
  obtain ⟨i', hi'⟩ := exists_decode_eq_ok hlen' (hopcode ▸ hop)
  obtain ⟨hwf, henc⟩ := wellFormed_encode_of_decode hi
  obtain ⟨hwf', henc'⟩ := wellFormed_encode_of_decode hi'
  have hsame : encode i = encode i' := henc.trans (h.trans henc'.symm)
  obtain rfl : i = i' := Except.ok.inj ((decode_encode hwf).symm.trans (hsame ▸ decode_encode hwf'))
  exact ⟨i, hi, hi', henc⟩

theorem clearUnused_word_eq {w w' : Word} (h : w &&& usedWord (field w.toNat 0 6) = w' &&& usedWord (field w.toNat 0 6)) :
    (InstBits.word w).clearUnused = (InstBits.word w').clearUnused := by
  have hop : w.extractLsb' 0 6 = w'.extractLsb' 0 6 := by
    simpa only [extract_opcode_and_usedWord] using congrArg (BitVec.extractLsb' 0 6) h
  rw [field_toNat] at h
  rw [InstBits.clearUnused, h, hop, InstBits.clearUnused]

theorem clearUnused_half_eq {h h' : Half} (he : h &&& usedHalf (field h.toNat 0 6) = h' &&& usedHalf (field h.toNat 0 6)) :
    (InstBits.half h).clearUnused = (InstBits.half h').clearUnused := by
  have hop : h.extractLsb' 0 6 = h'.extractLsb' 0 6 := by
    simpa only [extract_opcode_and_usedHalf] using congrArg (BitVec.extractLsb' 0 6) he
  rw [field_toNat] at he
  rw [InstBits.clearUnused, he, hop, InstBits.clearUnused]

end Sys2Proof
end

section
/-! # The statements about the encoding (spec/30_encoding.md) -/

namespace Sys2Proof.Machine

open Sys2Proof.Claims

/-- Settles O2, format by format. -/
theorem decodeOfEncode : Obligations.DecodeOfEncode := fun _ => decode_encode

/-- Settles O3: the encoding has the length its parity tells, so its bytes are taken off whole, and O2 decodes them. -/
theorem decodeBytesOfEncode : Obligations.DecodeBytesOfEncode := by
  intro i rest h
  rw [decodeBytes_append (lengthOk_encode i), decode_encode h]
  rfl

/-- Settles O4: the encoding is the used bits, which have the length and the opcode of all of them. -/
theorem decodedIsWellFormed : Obligations.DecodedIsWellFormed := by
  intro bits i h
  obtain ⟨hwf, henc⟩ := wellFormed_encode_of_decode h
  exact ⟨hwf, by rw [henc, InstBits.ilen_clearUnused], by rw [henc, InstBits.opcode_clearUnused]⟩

/-- Settles O5: the two decode alike since their used bits are the same. -/
theorem dontCareBitsIgnored : Obligations.DontCareBitsIgnored := by
  refine ⟨fun w w' heven hop h => ?_, fun h h' hodd hop he => ?_⟩
  · obtain ⟨i, hi, hi', henc⟩ :=
      decode_eq_of_clearUnused_eq (InstBits.lengthOk_word.mpr heven) hop (clearUnused_word_eq h)
    refine ⟨i, hi, hi', fun e hencode => ?_⟩
    rw [field_toNat]
    exact InstBits.word.inj (hencode.symm.trans henc)
  · obtain ⟨i, hi, hi', henc⟩ :=
      decode_eq_of_clearUnused_eq (InstBits.lengthOk_half.mpr hodd) hop (clearUnused_half_eq he)
    refine ⟨i, hi, hi', fun e hencode => ?_⟩
    rw [field_toNat]
    exact InstBits.half.inj (hencode.symm.trans henc)

/-- Settles O6, by the encoded length of each instruction. -/
theorem opcodeParityTellsLength : Obligations.OpcodeParityTellsLength := by
  intro i
  obtain ⟨hlen, hop, hparity⟩ := encodedLength i
  refine ⟨hop, hlen, ?_⟩
  cases hbit : i.opcode.getLsbD 0 with
  | true => exact .inl ⟨rfl, by rw [hparity, hbit]; rfl⟩
  | false => exact .inr ⟨rfl, by rw [hparity, hbit]; rfl⟩

/-- Settles O1, word by word. -/
theorem specWordsDecode : Obligations.SpecWordsDecode := by
  unfold Obligations.SpecWordsDecode
  decide

end Sys2Proof.Machine
end

section
/-! # The idioms (spec/30_encoding.md R66) -/

namespace Sys2Proof.Machine

open Sys2Proof.Claims

theorem State.restSame_retire (s : State) (ilen : Word) (rd : Reg) (v : Word) : RestSame s (s.retire ilen rd v) := by
  simp [RestSame]

/-- An instruction that completes gives its destination the value (R13, R199). -/
theorem State.gives_retire (s : State) (ilen : Word) (rd : Reg) (v : Word) : Gives s (s.retire ilen rd v) ilen rd v := by
  refine ⟨fun h => ?_, fun h => ?_, fun q hq hqd => ?_, s.restSame_retire ilen rd v⟩
  · simp [State.reg_retire, h]
  · simp [State.reg_retire, h, State.pc_eq]
  · simp [State.reg_retire, hq, hqd]

/-- Destination 0 is a jump (R13). -/
theorem State.onlyPc_retire_zero (s : State) (ilen v : Word) : OnlyPc s (s.retire ilen 0 v) v := by
  obtain ⟨hpc, -, hother, hrest⟩ := s.gives_retire ilen 0 v
  exact ⟨hpc rfl, fun q hq => hother q hq hq, hrest⟩

/-- A register given its own value: only the program counter moves. -/
theorem State.onlyPc_retire_self (s : State) (ilen : Word) {r : Reg} (hr : r ≠ 0) :
    OnlyPc s (s.retire ilen r (s.reg r)) (s.reg 0 + ilen) := by
  obtain ⟨-, hdest, hother, hrest⟩ := s.gives_retire ilen r (s.reg r)
  obtain ⟨hself, hpc⟩ := hdest hr
  refine ⟨hpc, fun q hq => ?_, hrest⟩
  by_cases hqr : q = r
  · rw [hqr, hself]
  · exact hother q hq hqr

/-- The program counter given its own value: nothing changes. -/
theorem State.retire_zero_pc (s : State) (ilen : Word) : s.retire ilen 0 (s.reg 0) = s := by
  obtain ⟨hpc, hother, -⟩ := s.onlyPc_retire_zero ilen (s.reg 0)
  refine State.ext_reg _ _ (fun q => ?_) (by simp) (by simp) (by simp) (by simp) (by simp)
  by_cases hq : q = 0
  · rw [hq, hpc]
  · exact hother q hq

/-- Settles O39: each idiom is a result for a register, and the pop a load in range. -/
theorem idioms : Obligations.Idioms := by
  intro s r off
  refine ⟨fun hr => ⟨_, exec_eq_run .., s.onlyPc_retire_self 2 hr⟩, ⟨_, exec_eq_run .., s.onlyPc_retire_zero 4 _⟩,
    ⟨_, exec_eq_run .., s.onlyPc_retire_zero 2 _⟩, ⟨_, exec_eq_run .., s.onlyPc_retire_zero 4 _⟩,
    ⟨_, exec_eq_run .., s.onlyPc_retire_zero 2 _⟩, ⟨_, exec_eq_run .., s.gives_retire 4 2 _⟩, fun hal hin => ?_,
    (exec_eq_run ..).trans (congrArg Host.Outcome.next (s.retire_zero_pc 2))⟩
  have hea : s.ea 1 0 = s.reg 1 := by simp [State.ea]
  have hok : s.accessFault (s.ea 1 0) 4 .load = none := State.accessFault_eq_none_iff.mpr (hea ▸ ⟨hal, hin⟩)
  refine ⟨_, (exec_eq_run ..).trans (congrArg Host.Outcome.next (State.opLoad_of_ok hok 4 0)), ?_⟩
  rw [hea]
  exact s.onlyPc_retire_zero 4 _

end Sys2Proof.Machine
end

section
/-! # The operands of an encoding as the numbers of its fields, and decoding by the layout of a format (spec/00_scope.md
section 5, spec/30_encoding.md R53 to R58) -/

namespace Sys2Proof

open Sys2Proof.Machine Sys2Proof.Claims

/-! ### The decoder's field readers as numbers -/

theorem reg5_eq_sel {k : Nat} (b : BitVec k) (lo : Nat) : reg5 b lo = sel b.toNat lo := by
  rw [sel, field_toNat]
  exact Fin.ext (Nat.mod_eq_of_lt (b.extractLsb' lo 5).isLt).symm

theorem reg3_eq_selPrimed (h : Half) (lo : Nat) : reg3 h lo = selPrimed h.toNat lo := by
  rw [reg3, selPrimed, field_toNat]
  generalize h.extractLsb' lo 3 = selector
  revert selector; decide

/-- Sign extension takes a field's number, less `2 ^ k` when its top bit is set, to the word of that value. -/
theorem signExtend_eq_sext {k : Nat} (hk : 0 < k) (x : BitVec k) : x.signExtend 32 = sext k x.toNat := by
  have htop : x.toNat < 2 ^ (k - 1) ↔ 2 * x.toNat < 2 ^ k := by
    obtain ⟨n, rfl⟩ : ∃ n, k = n + 1 := ⟨k - 1, by omega⟩
    rw [Nat.add_sub_cancel, Nat.pow_succ]
    omega
  rw [BitVec.signExtend, sext, BitVec.toInt_eq_toNat_cond]
  simp only [htop, Nat.cast_pow, Nat.cast_ofNat]

theorem imm16_eq_sext (w : Word) : imm16 w = sext 16 (field w.toNat 16 16) := by
  rw [field_toNat]; exact signExtend_eq_sext (by decide) _

theorem imm7_eq_sext (h : Half) : imm7 h = sext 7 (field h.toNat 9 7) := by
  rw [field_toNat]; exact signExtend_eq_sext (by decide) _

/-! ### An instruction is decoded from every encoding of its used bits -/

/-- The converse of `wellFormed_encode_of_decode`: the encoding is its own used bits, so bits with the same ones decode as it
does (R61). -/
theorem decode_eq_ok_iff {bits : InstBits} {i : Instr} :
    decode bits = .ok i ↔ i.wellFormed = true ∧ encode i = bits.clearUnused := by
  refine ⟨wellFormed_encode_of_decode, fun ⟨hwf, henc⟩ => ?_⟩
  have hi : decode (encode i) = .ok i := decode_encode hwf
  have hown : (encode i).clearUnused = bits.clearUnused := (wellFormed_encode_of_decode hi).2.symm.trans henc
  have hassigned : Assigned (encode i).opcode := fun hmem => by
    have herror := (decode_eq_error_iff (lengthOk_encode i)).mpr ⟨hmem, rfl⟩
    cases hi.symm.trans herror
  obtain ⟨j, hj, hbits, -⟩ := decode_eq_of_clearUnused_eq (lengthOk_encode i) hassigned hown
  rwa [Except.ok.inj (hi.symm.trans hj)]

theorem decode_word_of_layout {w mask : Word} {i : Instr} {op : BitVec 6} (hop : field w.toNat 0 6 = op.toNat)
    (hmask : usedWord op.toNat = mask) (hwf : i.wellFormed = true) (henc : encode i = .word (w &&& mask)) :
    decode (.word w) = .ok i :=
  decode_eq_ok_iff.mpr ⟨hwf, by rw [henc, InstBits.clearUnused, ← field_toNat, hop, hmask]⟩

theorem decode_half_of_layout {h mask : Half} {i : Instr} {op : BitVec 6} (hop : field h.toNat 0 6 = op.toNat)
    (hmask : usedHalf op.toNat = mask) (hwf : i.wellFormed = true) (henc : encode i = .half (h &&& mask)) :
    decode (.half h) = .ok i :=
  decode_eq_ok_iff.mpr ⟨hwf, by rw [henc, InstBits.clearUnused, ← field_toNat, hop, hmask]⟩

end Sys2Proof
end

section
/-! # The rules of the operand forms (spec/40_arith_logic.md R81): a row of the opcode map follows the rule of its format when
it is laid out in that format and its form applies the operation

The side conditions are rows of the model's tables `encode`, `wellFormed`, `usedWord` and `formOf`, read off by `rfl` where an
instruction is named. -/

namespace Sys2Proof.Machine

open Sys2Proof.Claims

/-- An instruction whose form is a result gives it to its destination. -/
theorem exec_of_formOf {i : Instr} {ilen : Word} {rd : Reg} {value : (Reg → Word) → Word}
    (h : formOf i = .result ilen rd value) (s : State) : exec i s = .next (s.retire ilen rd (value s.reg)) := by
  rw [exec_eq_run, h]; rfl

theorem gives_of_formOf {i : Instr} {ilen : Word} {rd : Reg} {value : (Reg → Word) → Word}
    (h : formOf i = .result ilen rd value) (s : State) : ∃ t, exec i s = .next t ∧ Gives s t ilen rd (value s.reg) :=
  ⟨_, exec_of_formOf h s, s.gives_retire ilen rd (value s.reg)⟩

theorem ruleR (op : BitVec 6) {mk : Reg → Reg → Reg → Instr} {f g : Word → Word → Word} (hfg : f = g)
    (hmask : usedWord op.toNat = 0x001fffff := by rfl)
    (hwf : ∀ rd rs1 rs2, (mk rd rs1 rs2).wellFormed = true := by intros; rfl)
    (henc : ∀ rd rs1 rs2, encode (mk rd rs1 rs2) = .word (layoutR op rd rs1 rs2) := by intros; rfl)
    (hform : ∀ rd rs1 rs2, formOf (mk rd rs1 rs2) = .opR f rd rs1 rs2 := by intros; rfl) : RuleR op.toNat mk g := by
  subst hfg
  refine ⟨fun w hop => ?_, fun rd rs1 rs2 s => gives_of_formOf (hform rd rs1 rs2) s⟩
  simp only [← reg5_eq_sel]
  exact decode_word_of_layout hop hmask (hwf ..) (by rw [henc, layoutR_read (field_toNat w 0 6 ▸ hop)])

theorem ruleI (op : BitVec 6) {mk : Reg → Reg → Word → Instr} {f g : Word → Word → Word} (hfg : f = g)
    (hmask : usedWord op.toNat = 0xffffffff := by rfl)
    (hwf : ∀ rd rs1 imm, (mk rd rs1 imm).wellFormed = fitsSigned16 imm := by intros; rfl)
    (henc : ∀ rd rs1 imm, encode (mk rd rs1 imm) = .word (layoutI op rd rs1 imm) := by intros; rfl)
    (hform : ∀ rd rs1 imm, formOf (mk rd rs1 imm) = .opI f rd rs1 imm := by intros; rfl) : RuleI op.toNat mk g := by
  subst hfg
  refine ⟨fun w hop => ?_, fun rd rs1 imm s => gives_of_formOf (hform rd rs1 imm) s⟩
  simp only [← reg5_eq_sel, ← imm16_eq_sext]
  exact decode_word_of_layout hop hmask ((hwf ..).trans (fitsSigned16_imm16 w))
    (by rw [henc, layoutI_read (field_toNat w 0 6 ▸ hop)])

/-- The first argument of the operation is the old value of the destination; C.MV ignores it. -/
theorem ruleCR (op : BitVec 6) {mk : Reg → Reg → Instr} {f g : Word → Word → Word} (hfg : f = g)
    (hmask : usedHalf op.toNat = 0xffff := by rfl)
    (hwf : ∀ rd rs2, (mk rd rs2).wellFormed = true := by intros; rfl)
    (henc : ∀ rd rs2, encode (mk rd rs2) = .half (layoutCR op rd rs2) := by intros; rfl)
    (hform : ∀ rd rs2, formOf (mk rd rs2) = .opCR f rd rs2 := by intros; rfl) : RuleCR op.toNat mk g := by
  subst hfg
  refine ⟨fun h hop => ?_, fun rd rs2 s => gives_of_formOf (hform rd rs2) s⟩
  simp only [← reg5_eq_sel]
  exact decode_half_of_layout hop hmask (hwf ..) (by rw [henc, layoutCR_read (field_toNat h 0 6 ▸ hop)])

theorem ruleCI (op : BitVec 6) {mk : Reg → Word → Instr} {f g : Word → Word → Word} (hfg : f = g)
    (hmask : usedHalf op.toNat = 0xffff := by rfl)
    (hwf : ∀ rd imm, (mk rd imm).wellFormed = (primed rd && fitsSigned7 imm) := by intros; rfl)
    (henc : ∀ rd imm, encode (mk rd imm) = .half (layoutCI op rd imm) := by intros; rfl)
    (hform : ∀ rd imm, formOf (mk rd imm) = .opCI f rd imm := by intros; rfl) : RuleCI op.toNat mk g := by
  subst hfg
  refine ⟨fun h hop => ?_, fun rd imm s => gives_of_formOf (hform rd imm) s⟩
  simp only [← reg3_eq_selPrimed, ← imm7_eq_sext]
  exact decode_half_of_layout hop hmask ((hwf ..).trans (Bool.and_eq_true_iff.mpr ⟨primed_reg3 h 6, fitsSigned7_imm7 h⟩))
    (by rw [henc, layoutCI_read (field_toNat h 0 6 ▸ hop)])

end Sys2Proof.Machine
end

section
/-! # The statements about arithmetic, logic and the register move (spec/40_arith_logic.md) -/

namespace Sys2Proof.Machine

open Sys2Proof.Claims

/-! ### The operations in exact arithmetic (R80) -/

theorem aluAdd_eq_sum : aluAdd = sum := by
  funext a b
  exact BitVec.eq_of_toNat_eq (by simp [aluAdd, sum])

theorem aluSub_eq_difference : aluSub = difference := by
  funext a b
  rw [aluSub, difference, sub_eq_add_neg (a.toNat : Int), BitVec.ofInt_add, BitVec.ofInt_neg]
  simp [BitVec.sub_eq_add_neg]

theorem aluAnd_eq : aluAnd = (· &&& ·) := rfl
theorem aluOr_eq : aluOr = (· ||| ·) := rfl
theorem aluXor_eq : aluXor = (· ^^^ ·) := rfl

/-! ### The forms -/

/-- Settles O26, row by row of format R. -/
theorem arithLogicRegisterForms : Obligations.ArithLogicRegisterForms :=
  ⟨ruleR 0x02 aluAdd_eq_sum, ruleR 0x04 aluSub_eq_difference, ruleR 0x06 aluAnd_eq, ruleR 0x08 aluOr_eq, ruleR 0x0a aluXor_eq⟩

/-- Settles O27, row by row of format I. -/
theorem arithLogicImmediateForms : Obligations.ArithLogicImmediateForms :=
  ⟨ruleI 0x12 aluAdd_eq_sum, ruleI 0x14 aluSub_eq_difference, ruleI 0x16 aluAnd_eq, ruleI 0x18 aluOr_eq, ruleI 0x1a aluXor_eq⟩

/-- Settles O28, row by row of format CR. -/
theorem arithLogicCompressedRegisterForms : Obligations.ArithLogicCompressedRegisterForms :=
  ⟨ruleCR 0x03 aluAdd_eq_sum, ruleCR 0x05 aluSub_eq_difference, ruleCR 0x07 aluAnd_eq, ruleCR 0x09 aluOr_eq,
    ruleCR 0x0b aluXor_eq⟩

/-- Settles O29, row by row of format CI. -/
theorem arithLogicCompressedImmediateForms : Obligations.ArithLogicCompressedImmediateForms :=
  ⟨ruleCI 0x13 aluAdd_eq_sum, ruleCI 0x15 aluSub_eq_difference, ruleCI 0x17 aluAnd_eq, ruleCI 0x19 aluOr_eq,
    ruleCI 0x1b aluXor_eq⟩

/-- Settles O30: the rule of format CR with the operation that returns its second operand. -/
theorem registerMove : Obligations.RegisterMove := ruleCR 0x01 rfl

/-! ### Compressed and standard forms (R82) -/

/-- The two forms of an operation compute the same value for the same destination and differ in their length alone: one pair of
rows after another. -/
theorem formOf_of_mem_forms {rd rs : Reg} {imm : Word} {c i : Instr} (h : (c, i) ∈ forms rd rs imm) :
    ∃ value, formOf c = .result 2 rd value ∧ formOf i = .result 4 rd value := by
  simp only [forms, List.mem_cons, List.not_mem_nil, or_false, Prod.mk.injEq] at h
  casesm* _ ∨ _
  all_goals
    obtain ⟨rfl, rfl⟩ := h
    exact ⟨_, rfl, rfl⟩

/-- Settles O35: both forms end in the same result, which `State.reg_retire` and the frame describe for each length. -/
theorem compressedMatchesStandard : Obligations.CompressedMatchesStandard := by
  intro s rd rs imm c i h
  obtain ⟨value, hc, hi⟩ := formOf_of_mem_forms h
  have hlengths : s.pc + 2 + 2 = s.pc + 4 := BitVec.add_assoc ..
  refine ⟨s.retire 2 rd (value s.reg), s.retire 4 rd (value s.reg), exec_of_formOf hc s, exec_of_formOf hi s,
    fun q hq => ?_, fun hrd => ?_, fun hrd => ?_, s.restSame_retire .., s.restSame_retire ..⟩
  · simp only [State.reg_retire, hq, if_false]
  · simp only [State.reg_retire, hrd, if_true]
  · simp only [State.reg_retire, hrd, if_true, if_false, hlengths]

end Sys2Proof.Machine
end

section
/-! # The statements about shifts (spec/41_shifts.md) -/

namespace Sys2Proof.Machine

open Sys2Proof.Claims

/-! ### The operations in exact arithmetic (R110, R111) -/

/-- The low five bits of the second operand are its remainder modulo 32 (R110). -/
theorem shiftAmount_eq_mod (b : Word) : shiftAmount b = b.toNat % 32 := by
  simp [shiftAmount, BitVec.extractLsb'_toNat]

theorem aluSll_eq_shiftLeft : aluSll = shiftLeft := by
  funext a b
  apply BitVec.eq_of_toNat_eq
  rw [aluSll, shiftLeft, shiftAmount_eq_mod, BitVec.toNat_shiftLeft, Nat.shiftLeft_eq, BitVec.toNat_ofNat, Nat.mod_mod]

theorem aluSrl_eq_shiftRight : aluSrl = shiftRight := by
  funext a b
  rw [aluSrl, shiftRight, shiftAmount_eq_mod, ← Nat.shiftRight_eq_div_pow, ← BitVec.toNat_ushiftRight,
    BitVec.ofNat_toNat, BitVec.setWidth_eq]

/-- An arithmetic shift rounds towards minus infinity: it is floor division, on negative values too. -/
theorem aluSra_eq_shiftRightSigned : aluSra = shiftRightSigned := by
  funext a b
  have hfloor : a.toInt >>> (b.toNat % 32) = a.toInt / 2 ^ (b.toNat % 32) := by
    simp [Int.shiftRight_eq_div_pow]
  rw [aluSra, shiftRightSigned, shiftAmount_eq_mod, BitVec.sshiftRight, hfloor]

/-! ### The forms -/

/-- Settles O31, row by row of format R. -/
theorem shiftRegisterForms : Obligations.ShiftRegisterForms :=
  ⟨ruleR 0x0c aluSll_eq_shiftLeft, ruleR 0x0e aluSrl_eq_shiftRight, ruleR 0x10 aluSra_eq_shiftRightSigned⟩

/-- Settles O32, row by row of format I. -/
theorem shiftImmediateForms : Obligations.ShiftImmediateForms :=
  ⟨ruleI 0x1c aluSll_eq_shiftLeft, ruleI 0x1e aluSrl_eq_shiftRight, ruleI 0x20 aluSra_eq_shiftRightSigned⟩

/-- Settles O33, row by row of format CR. -/
theorem shiftCompressedRegisterForms : Obligations.ShiftCompressedRegisterForms :=
  ⟨ruleCR 0x0d aluSll_eq_shiftLeft, ruleCR 0x0f aluSrl_eq_shiftRight, ruleCR 0x11 aluSra_eq_shiftRightSigned⟩

/-- Settles O34, row by row of format CI. -/
theorem shiftCompressedImmediateForms : Obligations.ShiftCompressedImmediateForms :=
  ⟨ruleCI 0x1d aluSll_eq_shiftLeft, ruleCI 0x1f aluSrl_eq_shiftRight, ruleCI 0x21 aluSra_eq_shiftRightSigned⟩

end Sys2Proof.Machine
end

section
/-! # The statement about the immediate loads (spec/42_load_immediate.md) -/

namespace Sys2Proof.Machine

open Sys2Proof.Claims

/-! ### The operands of formats U and CU as numbers (R58) -/

/-- A value placed in the upper half of a word is `2 ^ 16` times its number. -/
theorem append_zeros_eq_ofNat (x : BitVec 16) : x ++ 0#16 = BitVec.ofNat 32 (x.toNat * 2 ^ 16) := by
  apply BitVec.eq_of_toNat_eq
  rw [BitVec.toNat_append, BitVec.toNat_ofNat, BitVec.toNat_ofNat, Nat.zero_mod, Nat.or_zero, Nat.shiftLeft_eq]
  omega

theorem upper16_eq_ofNat (w : Word) : upper16 w = BitVec.ofNat 32 (field w.toNat 16 16 * 2 ^ 16) := by
  rw [field_toNat]; exact append_zeros_eq_ofNat _

/-- The seven bits are zero-extended: the number is the field's own (R134). -/
theorem upper7_eq_ofNat (h : Half) : upper7 h = BitVec.ofNat 32 (field h.toNat 9 7 * 2 ^ 16) := by
  rw [field_toNat, ← BitVec.toNat_setWidth_of_le (show 7 ≤ 16 by decide)]
  exact append_zeros_eq_ofNat _

/-! ### The encodings -/

/-- R131: format I with no `rs1`. -/
theorem decode_word_li {w : Word} (hop : field w.toNat 0 6 = 0x22) :
    decode (.word w) = .ok (.li (sel w.toNat 6) (sext 16 (field w.toNat 16 16))) := by
  rw [← reg5_eq_sel, ← imm16_eq_sext]
  exact decode_word_of_layout (op := 0x22) hop rfl (fitsSigned16_imm16 w)
    (congrArg InstBits.word (layoutI_read_rd (field_toNat w 0 6 ▸ hop)))

/-- R133: format U. -/
theorem decode_word_lui {w : Word} (hop : field w.toNat 0 6 = 0x24) :
    decode (.word w) = .ok (.lui (sel w.toNat 6) (BitVec.ofNat 32 (field w.toNat 16 16 * 2 ^ 16))) := by
  rw [← reg5_eq_sel, ← upper16_eq_ofNat]
  exact decode_word_of_layout (op := 0x24) hop rfl (fitsUpper16_upper16 w)
    (congrArg InstBits.word (layoutU_read (field_toNat w 0 6 ▸ hop)))

/-- R134: format CU. -/
theorem decode_half_cLui {h : Half} (hop : field h.toNat 0 6 = 0x25) :
    decode (.half h) = .ok (.cLui (selPrimed h.toNat 6) (BitVec.ofNat 32 (field h.toNat 9 7 * 2 ^ 16))) := by
  rw [← reg3_eq_selPrimed, ← upper7_eq_ofNat]
  exact decode_half_of_layout (op := 0x25) hop rfl (Bool.and_eq_true_iff.mpr ⟨primed_reg3 h 6, fitsUpper7_upper7 h⟩)
    (congrArg InstBits.half (layoutCU_read (field_toNat h 0 6 ▸ hop)))

/-- R132: the rule of format CI with the operation that returns its immediate; the old value of the destination is dropped. -/
theorem ruleCI_cLi : RuleCI 0x23 .cLi fun _ imm => imm := ruleCI 0x23 rfl

/-! ### The results -/

/-- An instruction whose form is its immediate gives it to its destination, whatever the registers hold. -/
theorem gives_immediate (mk : Reg → Word → Instr) (ilen : Word)
    (hform : ∀ rd imm, formOf (mk rd imm) = .result ilen rd fun _ => imm := by intros; rfl) (rd : Reg) (imm : Word) (s : State) :
    ∃ t, exec (mk rd imm) s = .next t ∧ Gives s t ilen rd imm :=
  gives_of_formOf (hform rd imm) s

/-- Settles O36: C.LI follows the rule of format CI; the other three are decoded by their own layouts. -/
theorem immediateLoads : Obligations.ImmediateLoads := by
  obtain ⟨decode_half_cLi, gives_cLi⟩ := ruleCI_cLi
  exact ⟨fun _ => decode_word_li, decode_half_cLi, fun _ => decode_word_lui, fun _ => decode_half_cLui,
    gives_immediate .li 4, gives_cLi, gives_immediate .lui 4, gives_immediate .cLui 2⟩

end Sys2Proof.Machine
end

section
/-! # The rules of the branches (spec/43_branches.md R140): a row of the opcode map follows the rule of its format when it
is laid out in that format and its form branches on the comparison

The side conditions are rows of the model's tables `encode`, `wellFormed`, `usedWord`, `usedHalf` and `formOf`, read off by `rfl`
where an instruction is named. -/

namespace Sys2Proof.Machine

open Sys2Proof.Claims

/-! ### The effect -/

/-- A branch moves the program counter and nothing else (R140). -/
theorem State.onlyPc_branch (s : State) (ilen : Word) (taken : Bool) (imm : Word) :
    OnlyPc s (s.branch ilen taken imm) (s.reg 0 + if taken then imm else ilen) := by
  refine ⟨?_, fun q hq => ?_, by simp [RestSame]⟩
  · rw [State.reg_branch, if_pos rfl, State.pc_eq]
  · rw [State.reg_branch, if_neg hq]

/-- An instruction whose form is a branch on the condition `C` goes to `pc + imm` if `C`, else to `pc + ilen`. -/
theorem branches_of_formOf {i : Instr} {ilen : Word} {taken : (Reg → Word) → Bool} {imm : Word}
    (h : formOf i = .branch ilen taken imm) {s : State} {C : Prop} (hC : taken s.reg = true ↔ C) :
    ∃ t, exec i s = .next t ∧ (C → OnlyPc s t (s.reg 0 + imm)) ∧ (¬C → OnlyPc s t (s.reg 0 + ilen)) := by
  have hpc := s.onlyPc_branch ilen (taken s.reg) imm
  refine ⟨s.branch ilen (taken s.reg) imm, by rw [exec_eq_run, h]; rfl, fun htaken => ?_, fun hnot => ?_⟩
  · rwa [if_pos (hC.mpr htaken)] at hpc
  · rwa [if_neg (mt hC.mp hnot)] at hpc

theorem unaryBranch_of_formOf {mk : Reg → Word → Instr} {ilen : Word} {taken : Word → Bool} {P : Word → Prop}
    (hP : ∀ a, taken a = true ↔ P a) (hform : ∀ rs1 imm, formOf (mk rs1 imm) = .branch ilen (fun x => taken (x rs1)) imm) :
    UnaryBranch mk ilen P :=
  fun rs1 imm _ => branches_of_formOf (hform rs1 imm) (hP _)

/-! ### The rules of formats S and CS -/

theorem imm4_eq_sext (h : Half) : imm4 h = sext 4 (field h.toNat 12 4) := by
  rw [field_toNat]; exact signExtend_eq_sext (by decide) _

theorem ruleBranch2 (op : BitVec 6) {mk : Reg → Reg → Word → Instr} {taken : Word → Word → Bool} {P : Word → Word → Prop}
    (hP : ∀ a b, taken a b = true ↔ P a b) (hmask : usedWord op.toNat = 0xffffffff := by rfl)
    (hwf : ∀ rs1 rs2 imm, (mk rs1 rs2 imm).wellFormed = fitsSigned16 imm := by intros; rfl)
    (henc : ∀ rs1 rs2 imm, encode (mk rs1 rs2 imm) = .word (layoutS op rs1 rs2 imm) := by intros; rfl)
    (hform : ∀ rs1 rs2 imm, formOf (mk rs1 rs2 imm) = .branch 4 (fun x => taken (x rs1) (x rs2)) imm := by intros; rfl) :
    RuleBranch2 op.toNat mk P := by
  refine ⟨fun w hop => ?_, fun rs1 rs2 imm s => branches_of_formOf (hform rs1 rs2 imm) (hP _ _)⟩
  simp only [← reg5_eq_sel, ← imm16_eq_sext]
  exact decode_word_of_layout hop hmask ((hwf ..).trans (fitsSigned16_imm16 w))
    (by rw [henc, layoutS_read (field_toNat w 0 6 ▸ hop)])

/-- The mask leaves the unused selector `rs2` out (R61). -/
theorem ruleBranch1 (op : BitVec 6) {mk : Reg → Word → Instr} {taken : Word → Bool} {P : Word → Prop}
    (hP : ∀ a, taken a = true ↔ P a) (hmask : usedWord op.toNat = 0xffff07ff := by rfl)
    (hwf : ∀ rs1 imm, (mk rs1 imm).wellFormed = fitsSigned16 imm := by intros; rfl)
    (henc : ∀ rs1 imm, encode (mk rs1 imm) = .word (layoutS op rs1 0 imm) := by intros; rfl)
    (hform : ∀ rs1 imm, formOf (mk rs1 imm) = .branch 4 (fun x => taken (x rs1)) imm := by intros; rfl) :
    RuleBranch1 op.toNat mk P := by
  refine ⟨fun w hop => ?_, unaryBranch_of_formOf hP hform⟩
  simp only [← reg5_eq_sel, ← imm16_eq_sext]
  exact decode_word_of_layout hop hmask ((hwf ..).trans (fitsSigned16_imm16 w))
    (by rw [henc, layoutS_read_rs1 (field_toNat w 0 6 ▸ hop)])

/-- The mask leaves the unused selector `rs2'` out (R61). -/
theorem ruleCBranch1 (op : BitVec 6) {mk : Reg → Word → Instr} {taken : Word → Bool} {P : Word → Prop}
    (hP : ∀ a, taken a = true ↔ P a) (hmask : usedHalf op.toNat = 0xf1ff := by rfl)
    (hwf : ∀ rs1 imm, (mk rs1 imm).wellFormed = (primed rs1 && fitsSigned4 imm) := by intros; rfl)
    (henc : ∀ rs1 imm, encode (mk rs1 imm) = .half (layoutCS op rs1 0 imm) := by intros; rfl)
    (hform : ∀ rs1 imm, formOf (mk rs1 imm) = .branch 2 (fun x => taken (x rs1)) imm := by intros; rfl) :
    RuleCBranch1 op.toNat mk P := by
  refine ⟨fun h hop => ?_, unaryBranch_of_formOf hP hform⟩
  simp only [← reg3_eq_selPrimed, ← imm4_eq_sext]
  exact decode_half_of_layout hop hmask ((hwf ..).trans (Bool.and_eq_true_iff.mpr ⟨primed_reg3 h 6, fitsSigned4_imm4 h⟩))
    (by rw [henc, layoutCS_read_rs1 (field_toNat h 0 6 ▸ hop)])

end Sys2Proof.Machine
end

section
/-! # The statements about the branches (spec/43_branches.md) -/

namespace Sys2Proof.Machine

open Sys2Proof.Claims

/-! ### The comparisons (R142 to R149) -/

theorem takenZero_iff (a : Word) : takenZero a = true ↔ a = 0 := beq_iff_eq
theorem takenNonzero_iff (a : Word) : takenNonzero a = true ↔ a ≠ 0 := bne_iff_ne
theorem takenEq_iff (a b : Word) : takenEq a b = true ↔ a = b := beq_iff_eq
theorem takenNe_iff (a b : Word) : takenNe a b = true ↔ a ≠ b := bne_iff_ne
theorem takenLt_iff (a b : Word) : takenLt a b = true ↔ a.toInt < b.toInt := decide_eq_true_iff
theorem takenGe_iff (a b : Word) : takenGe a b = true ↔ a.toInt ≥ b.toInt := decide_eq_true_iff
theorem takenLtU_iff (a b : Word) : takenLtU a b = true ↔ a.toNat < b.toNat := decide_eq_true_iff
theorem takenGeU_iff (a b : Word) : takenGeU a b = true ↔ a.toNat ≥ b.toNat := decide_eq_true_iff

/-! ### The forms -/

/-- Settles O37, row by row of formats S and CS. -/
theorem unaryBranches : Obligations.UnaryBranches :=
  ⟨ruleBranch1 0x2a takenZero_iff, ruleBranch1 0x2c takenNonzero_iff, ruleCBranch1 0x2b takenZero_iff,
    ruleCBranch1 0x2d takenNonzero_iff⟩

/-- Settles O38, row by row of format S. -/
theorem binaryBranches : Obligations.BinaryBranches :=
  ⟨ruleBranch2 0x2e takenEq_iff, ruleBranch2 0x30 takenNe_iff, ruleBranch2 0x32 takenLt_iff, ruleBranch2 0x34 takenGe_iff,
    ruleBranch2 0x36 takenLtU_iff, ruleBranch2 0x38 takenGeU_iff⟩

end Sys2Proof.Machine
end

section
/-! # The rules of the load and store forms (spec/44_load_store.md R160): an instruction that accesses one word of Memory faults
by the check of the access, or completes -/

namespace Sys2Proof.Machine

open Sys2Proof.Claims

/-! ### The clauses of an access (R32 to R35, R38, R226) -/

theorem State.accessFault_misaligned {s : State} {addr : Word} {n : Nat} (k : Access) (hm : Misaligned s addr n) :
    s.accessFault addr n k = some (.memory addr k .misaligned) :=
  State.accessFault_some.mpr (.inl ⟨hm.1, hm.2, rfl⟩)

/-- What raises the fault of an access and is otherwise `Done` has the three clauses of the access: alignment is checked before
range. -/
theorem State.access_clauses {s : State} {addr : Word} {n : Nat} {k : Access} {o : Outcome} {Done : Prop}
    (hfault : ∀ f, s.accessFault addr n k = some f → o = .next (faulted s f))
    (hdone : s.accessFault addr n k = none → Done) :
    (Misaligned s addr n → o = .next (faulted s (.memory addr k .misaligned))) ∧
    (¬Misaligned s addr n → ¬InRange s addr n → o = .next (faulted s (.memory addr k .outOfRange))) ∧
    (¬Misaligned s addr n → InRange s addr n → Done) :=
  ⟨fun hm => hfault _ (State.accessFault_misaligned k hm),
    fun hal hout => hfault _ (State.accessFault_outOfRange k hal hout),
    fun hal hin => hdone (State.accessFault_eq_none_iff.mpr ⟨hal, hin⟩)⟩

/-! ### The effect -/

theorem exec_eq_run_of_formOf {i : Instr} {F : Form} (h : formOf i = F) (s : State) : exec i s = .next (F.run s) :=
  h ▸ exec_eq_run i s

/-- An instruction whose form is a load gives its destination the word read (R161). -/
theorem loads_of_formOf {mk : Reg → Reg → Word → Instr} {ilen : Word}
    (hform : ∀ rd base imm, formOf (mk rd base imm) = .load ilen rd base imm) : Loads mk ilen := by
  intro rd base imm s
  have hexec : exec (mk rd base imm) s = .next (s.opLoad ilen rd base imm) := exec_eq_run_of_formOf (hform ..) s
  refine State.access_clauses (fun f hf => ?_) fun hok => ?_
  · exact hexec.trans (congrArg Host.Outcome.next (State.opLoad_of_fault hf ilen rd))
  · exact ⟨_, hexec.trans (congrArg Host.Outcome.next (State.opLoad_of_ok hok ilen rd)), s.gives_retire ilen rd _⟩

/-- An instruction whose form is a store writes the four bytes, little-endian, and advances the program counter (R163). -/
theorem stores_of_formOf {mk : Reg → Reg → Word → Instr} {ilen : Word}
    (hform : ∀ src base imm, formOf (mk src base imm) = .store ilen src base imm) : Stores mk ilen := by
  intro src base imm s
  have hexec : exec (mk src base imm) s = .next (s.opStore ilen src base imm) := exec_eq_run_of_formOf (hform ..) s
  refine State.access_clauses (fun f hf => ?_) fun hok => ?_
  · exact hexec.trans (congrArg Host.Outcome.next (State.opStore_of_fault hf ilen src))
  · refine ⟨_, hexec.trans (congrArg Host.Outcome.next (State.opStore_of_ok hok ilen src)), ?_, fun q hq => ?_,
      by simp, by simp, by simp, by simp, fun hwf => ?_⟩
    · rw [State.reg_advance, if_pos rfl, State.withMem_pc, State.pc_eq]
    · rw [State.reg_advance, if_neg hq, State.withMem_reg]
    · rw [State.advance_mem, State.withMem_mem]
      exact ⟨Memory.read_writeWord_inside hwf _ _, Memory.read_writeWord_outside hwf _ _⟩

end Sys2Proof.Machine
end

section
/-! # The statements about loads and stores (spec/44_load_store.md) -/

namespace Sys2Proof.Machine

open Sys2Proof.Claims

/-! ### The encodings -/

/-- The operands of formats CL and CS are values their fields admit (R57, R58). -/
theorem primed_pair_fitsSigned4 (h : Half) :
    (primed (reg3 h 6) && primed (reg3 h 9) && fitsSigned4 (imm4 h)) = true := by
  rw [primed_reg3, primed_reg3, fitsSigned4_imm4]; rfl

/-- R161: format I. -/
theorem decode_word_load {w : Word} (hop : field w.toNat 0 6 = 0x26) :
    decode (.word w) = .ok (.load (sel w.toNat 6) (sel w.toNat 11) (sext 16 (field w.toNat 16 16))) := by
  simp only [← reg5_eq_sel, ← imm16_eq_sext]
  exact decode_word_of_layout (op := 0x26) hop rfl (fitsSigned16_imm16 w)
    (congrArg InstBits.word (layoutI_read (field_toNat w 0 6 ▸ hop)))

/-- R162: format CL. -/
theorem decode_half_cLoad {h : Half} (hop : field h.toNat 0 6 = 0x27) :
    decode (.half h) = .ok (.cLoad (selPrimed h.toNat 6) (selPrimed h.toNat 9) (sext 4 (field h.toNat 12 4))) := by
  simp only [← reg3_eq_selPrimed, ← imm4_eq_sext]
  exact decode_half_of_layout (op := 0x27) hop rfl (primed_pair_fitsSigned4 h)
    (congrArg InstBits.half (layoutCL_read (field_toNat h 0 6 ▸ hop)))

/-- R163: format S. -/
theorem decode_word_store {w : Word} (hop : field w.toNat 0 6 = 0x28) :
    decode (.word w) = .ok (.store (sel w.toNat 6) (sel w.toNat 11) (sext 16 (field w.toNat 16 16))) := by
  simp only [← reg5_eq_sel, ← imm16_eq_sext]
  exact decode_word_of_layout (op := 0x28) hop rfl (fitsSigned16_imm16 w)
    (congrArg InstBits.word (layoutS_read (field_toNat w 0 6 ▸ hop)))

/-- R164: format CS. -/
theorem decode_half_cStore {h : Half} (hop : field h.toNat 0 6 = 0x29) :
    decode (.half h) = .ok (.cStore (selPrimed h.toNat 6) (selPrimed h.toNat 9) (sext 4 (field h.toNat 12 4))) := by
  simp only [← reg3_eq_selPrimed, ← imm4_eq_sext]
  exact decode_half_of_layout (op := 0x29) hop rfl (primed_pair_fitsSigned4 h)
    (congrArg InstBits.half (layoutCS_read (field_toNat h 0 6 ▸ hop)))

/-! ### The forms -/

/-- Settles O40: the layouts of formats I and CL, and the clauses of a load of each length. -/
theorem loadForms : Obligations.LoadForms :=
  ⟨fun _ => decode_word_load, fun _ => decode_half_cLoad, loads_of_formOf fun _ _ _ => rfl, loads_of_formOf fun _ _ _ => rfl⟩

/-- Settles O41: the layouts of formats S and CS, and the clauses of a store of each length. -/
theorem storeForms : Obligations.StoreForms :=
  ⟨fun _ => decode_word_store, fun _ => decode_half_cStore, stores_of_formOf fun _ _ _ => rfl,
    stores_of_formOf fun _ _ _ => rfl⟩

end Sys2Proof.Machine
end

section
/-! # The rules of the system calls and breakpoints (spec/45_system.md R171 to R177): which way a call goes, what it hands the
host and what the host's answer leaves in Memory -/

namespace Sys2Proof.Machine

open Sys2Proof.Claims

/-! ### Which way a system call goes (R171, R174, R175, R227) -/

theorem exec_of_isCall {mk : Word → Instr} {ilen : Word} (h : IsCall mk ilen) (n : Word) (s : State) :
    exec (mk n) s = .next (s.syscall ilen n) := by
  obtain ⟨rfl, rfl⟩ | ⟨rfl, rfl⟩ := h <;> exact exec_eq_run ..

theorem ne_zero_of_one_le_toNat {n : Word} (h : 1 ≤ n.toNat) : n ≠ 0 := by
  rintro rfl
  exact absurd h (by decide)

theorem State.syscall_of_unknown {n : Word} (hn : 5 < n.toNat) (s : State) (ilen : Word) :
    s.syscall ilen n = s.raise (.syscall s.pc n) :=
  if_pos hn

theorem State.syscall_zero (s : State) (ilen : Word) : s.syscall ilen 0 = s.withStatus (.exited (s.reg 4)) := rfl

theorem State.syscall_of_fault {s : State} {n : Word} {f : FaultReport} (h1 : 1 ≤ n.toNat) (h5 : n.toNat ≤ 5)
    (h : s.bufferFault n = some f) (ilen : Word) : s.syscall ilen n = s.raise f := by
  rw [State.syscall, if_neg (Nat.not_lt.mpr h5), if_neg (ne_zero_of_one_le_toNat h1), h]

theorem State.syscall_of_ok {s : State} {n : Word} (h1 : 1 ≤ n.toNat) (h5 : n.toNat ≤ 5) (h : s.bufferFault n = none)
    (ilen : Word) : s.syscall ilen n = s.completeCall ilen n := by
  rw [State.syscall, if_neg (Nat.not_lt.mpr h5), if_neg (ne_zero_of_one_le_toNat h1), h]

/-- SyscallFault is raised for the numbers above 5 only (R224): an exit ends the run, a buffer's fault is a MemoryFault, and a
call that completes leaves the trap state. -/
theorem State.syscall_status_ne_syscallFault {s : State} {n : Word} (hr : s.status = .running) (h5 : n.toNat ≤ 5)
    (ilen a k : Word) : (s.syscall ilen n).status ≠ .faulted (.syscall a k) := by
  obtain ⟨hn, -⟩ | ⟨-, h⟩ | ⟨-, -, f, hf, h⟩ | ⟨-, -, -, h⟩ := s.syscall_cases ilen n
  · omega
  · simp [h]
  · obtain ⟨p, l, -, -, -, rfl⟩ := State.bufferFault_some.mp hf
    simp [h]
  · simp [h, hr]

/-- A system call puts a request on the port only when it completes, so only with a number 1 to 5 (R172, R226). -/
theorem State.syscall_hostCalls_cases (s : State) (ilen n : Word) :
    (s.syscall ilen n).hostCalls = s.hostCalls ∨
    (1 ≤ n.toNat ∧ n.toNat ≤ 5 ∧ s.syscall ilen n = s.completeCall ilen n) := by
  obtain ⟨-, h⟩ | ⟨-, h⟩ | ⟨-, -, f, -, h⟩ | ⟨h5, h0, -, h⟩ := s.syscall_cases ilen n
  · exact .inl (by simp [h])
  · exact .inl (by simp [h])
  · exact .inl (by simp [h])
  · exact .inr ⟨by bv_omega, h5, h⟩

/-- Only a system call that completes puts a request on the port, whatever the form of the instruction. -/
theorem Form.run_hostCalls_cases (F : Form) (s : State) :
    (F.run s).hostCalls = s.hostCalls ∨
    ∃ ilen n, F = .call ilen n ∧ 1 ≤ n.toNat ∧ n.toNat ≤ 5 ∧ F.run s = s.completeCall ilen n := by
  cases F with
  | result ilen rd value => exact .inl (State.retire_hostCalls ..)
  | branch ilen taken imm => exact .inl (State.branch_hostCalls ..)
  | load ilen rd base imm =>
    obtain ⟨f, -, h⟩ | ⟨-, h⟩ := s.opLoad_cases ilen rd base imm <;> exact .inl (by simp [Form.run, h])
  | store ilen src base imm =>
    obtain ⟨f, -, h⟩ | ⟨-, h⟩ := s.opStore_cases ilen src base imm <;> exact .inl (by simp [Form.run, h])
  | call ilen n => exact (s.syscall_hostCalls_cases ilen n).imp_right fun h => ⟨ilen, n, rfl, h⟩
  | brk ilen =>
    obtain ⟨-, h⟩ | ⟨-, h⟩ | ⟨-, h⟩ := s.breakpoint_cases ilen <;> exact .inl (by simp [Form.run, h])

/-! ### The buffer (R173) -/

theorem State.syscallBuffer_eq_buffer (s : State) (n : Word) : s.syscallBuffer n = buffer s n.toNat := by
  unfold State.syscallBuffer buffer
  split <;> simp_all

theorem State.bufferFault_eq_some_iff {s : State} {n : Word} {f : FaultReport} :
    s.bufferFault n = some f ↔ ∃ p l, BufferOut s n.toNat p l ∧ f = .memory p .syscall .outOfRange := by
  simp only [State.bufferFault_some, State.syscallBuffer_eq_buffer, BufferOut, and_assoc]

theorem State.bufferFault_eq_none_iff {s : State} {n : Word} :
    s.bufferFault n = none ↔ ¬∃ p l, BufferOut s n.toNat p l := by
  rw [Option.eq_none_iff_forall_ne_some]
  refine ⟨fun h ⟨p, l, hout⟩ => ?_, fun h f hf => ?_⟩
  · exact h _ (State.bufferFault_eq_some_iff.mpr ⟨p, l, hout, rfl⟩)
  · obtain ⟨p, l, hout, -⟩ := State.bufferFault_eq_some_iff.mp hf
    exact h ⟨p, l, hout⟩

/-! ### What the host is handed (R172) -/

@[simp] theorem Memory.length_readBytes (m : Memory) (a n : Nat) : (m.readBytes a n).length = n := by
  induction n generalizing a with
  | zero => rfl
  | succ n ih => simp [Memory.readBytes, ih]

theorem Memory.getElem?_readBytes (m : Memory) {a n i : Nat} (h : i < n) :
    (m.readBytes a n)[i]? = some (m.read (a + i)) := by
  induction n generalizing a i with
  | zero => omega
  | succ n ih =>
    cases i with
    | zero => rfl
    | succ i =>
      rw [Memory.readBytes, List.getElem?_cons_succ, ih (by omega), Nat.add_assoc, Nat.add_comm 1]

theorem State.hostReads_write (s : State) : s.hostReads 2 = s.mem.readBytes (s.reg 5).toNat (s.reg 6).toNat := rfl

theorem State.hostReads_path {n : Word} (h : n = 3 ∨ n = 5) (s : State) :
    s.hostReads n = s.mem.readBytes (s.reg 4).toNat (s.reg 5).toNat := by
  obtain rfl | rfl := h <;> rfl

/-! ### What the host's answer leaves in `x[3]` and in Memory (R172) -/

theorem State.hostResult_eq (s : State) (n : Word) :
    s.hostResult n = if n = 2 ∧ s.reg 6 = 0 then 0 else Config.hostResult s.hostCalls.length := by
  have hn : n.toNat = 2 ↔ n = 2 := BitVec.toNat_inj (y := 2)
  simp only [State.hostResult, hn]

theorem State.hostMem_of_ne_read {n : Word} (h : n ≠ 1) (s : State) : s.hostMem n = s.mem := by
  unfold State.hostMem
  split
  · exact absurd (BitVec.eq_of_toNat_eq ‹_›) h
  · rfl

theorem getD_hostBytes (k : Nat) {count i : Nat} (h : i < count) : (hostBytes k count).getD i 0 = Config.hostByte k i := by
  simp [hostBytes, h]

theorem State.read_hostMem_read {s : State} (hm : s.mem.wf = true) (a : Nat) :
    (s.hostMem 1).read a =
      if (s.reg 5).toNat ≤ a ∧ a < (s.reg 5).toNat + (s.reg 6).toNat then
        Config.hostByte s.hostCalls.length (a - (s.reg 5).toNat)
      else s.mem.read a := by
  have hread : (s.hostMem 1).read a = _ := Memory.read_writeBytes hm _ _ a
  rw [hread, hostBytes_length]
  split
  · exact getD_hostBytes _ (by omega)
  · rfl

/-! ### Breakpoints (R177) -/

theorem State.breakpoint_of_disabled {s : State} (h : s.cfg.breakMode = .disabled) (ilen : Word) :
    s.breakpoint ilen = s.advance ilen := by
  simp [State.breakpoint, h]

theorem State.breakpoint_of_notify {s : State} (h : s.cfg.breakMode = .notify) (ilen : Word) :
    s.breakpoint ilen = (s.notify s.pc).advance ilen := by
  simp [State.breakpoint, h]

theorem State.breakpoint_of_halt {s : State} (h : s.cfg.breakMode = .halt) (ilen : Word) :
    s.breakpoint ilen = ((s.notify s.pc).advance ilen).withStatus (.breakHalted s.pc) := by
  simp [State.breakpoint, h]

/-- Whatever the mode, the program counter passes the instruction and no other register changes. -/
theorem State.reg_breakpoint (s : State) (ilen : Word) (q : Reg) :
    (s.breakpoint ilen).reg q = if q = 0 then s.pc + ilen else s.reg q := by
  obtain ⟨-, h⟩ | ⟨-, h⟩ | ⟨-, h⟩ := s.breakpoint_cases ilen <;> simp [h, State.reg_advance]

@[simp] theorem State.breakpoint_mem (s : State) (ilen : Word) : (s.breakpoint ilen).mem = s.mem := by
  obtain ⟨-, h⟩ | ⟨-, h⟩ | ⟨-, h⟩ := s.breakpoint_cases ilen <;> simp [h]

@[simp] theorem State.breakpoint_hostCalls (s : State) (ilen : Word) : (s.breakpoint ilen).hostCalls = s.hostCalls := by
  obtain ⟨-, h⟩ | ⟨-, h⟩ | ⟨-, h⟩ := s.breakpoint_cases ilen <;> simp [h]

@[simp] theorem State.breakpoint_cfg (s : State) (ilen : Word) : (s.breakpoint ilen).cfg = s.cfg := by
  obtain ⟨-, h⟩ | ⟨-, h⟩ | ⟨-, h⟩ := s.breakpoint_cases ilen <;> simp [h]

end Sys2Proof.Machine
end

section
/-! # The statements about system calls and breakpoints (spec/45_system.md) -/

namespace Sys2Proof.Machine

open Sys2Proof.Claims

/-! ### The encodings -/

theorem number16_eq_ofNat (w : Word) : number16 w = BitVec.ofNat 32 (field w.toNat 16 16) := by
  rw [field_toNat, BitVec.ofNat_toNat, number16]

theorem number7_eq_ofNat (h : Half) : number7 h = BitVec.ofNat 32 (field h.toNat 9 7) := by
  rw [field_toNat, BitVec.ofNat_toNat, number7]

/-- R175: format SYS, the number zero-extended (R58, R171). -/
theorem decode_word_call {w : Word} (hop : field w.toNat 0 6 = 0x3a) :
    decode (.word w) = .ok (.call (BitVec.ofNat 32 (field w.toNat 16 16))) := by
  rw [← number16_eq_ofNat]
  exact decode_word_of_layout (op := 0x3a) hop rfl (fitsNumber16_number16 w)
    (congrArg InstBits.word (layoutSys_read (field_toNat w 0 6 ▸ hop)))

/-- R176: format CSYS. -/
theorem decode_half_cCall {h : Half} (hop : field h.toNat 0 6 = 0x3b) :
    decode (.half h) = .ok (.cCall (BitVec.ofNat 32 (field h.toNat 9 7))) := by
  rw [← number7_eq_ofNat]
  exact decode_half_of_layout (op := 0x3b) hop rfl (fitsNumber7_number7 h)
    (congrArg InstBits.half (layoutCSys_read (field_toNat h 0 6 ▸ hop)))

/-- R178: format SYS, every bit but the opcode's unused. -/
theorem decode_word_brk {w : Word} (hop : field w.toNat 0 6 = 0x3c) : decode (.word w) = .ok .brk :=
  decode_word_of_layout (op := 0x3c) hop rfl rfl
    (congrArg InstBits.word (layoutSys_read_opcode (field_toNat w 0 6 ▸ hop)))

/-- R179: format CSYS, every bit but the opcode's unused. -/
theorem decode_half_cBrk {h : Half} (hop : field h.toNat 0 6 = 0x3d) : decode (.half h) = .ok .cBrk :=
  decode_half_of_layout (op := 0x3d) hop rfl rfl
    (congrArg InstBits.half (layoutCSys_read_opcode (field_toNat h 0 6 ▸ hop)))

/-! ### System calls -/

/-- Settles O23: a fault leaves the record of requests, and of the forms only a completing call adds to it. -/
theorem hostCallsOnlyFromCall : Obligations.HostCallsOnlyFromCall := by
  intro s t h
  obtain ⟨hr, hs⟩ := step_cases h
  cases hs with
  | fetchFault f hf ht => exact .inl (by rw [ht, State.raise_hostCalls])
  | decodeFault bits e hf hd ht => exact .inl (by rw [ht, State.raiseDecode, State.raise_hostCalls])
  | ran i hi ht =>
    obtain hsame | ⟨ilen, n, hF, h1, h5, hdone⟩ := (formOf i).run_hostCalls_cases s
    · exact .inl (by rw [ht, hsame])
    · replace ht := ht.trans hdone
      exact .inr ⟨by rw [ht, State.completeCall_status, hr], s.hostRequest n, n, by rw [ht, State.completeCall_hostCalls],
        runs_call hi hF, h1, h5, rfl, rfl, rfl, rfl, rfl⟩

/-- Settles O48: the layouts of the two calls, and the number is checked before anything else. -/
theorem unknownSyscallFaults : Obligations.UnknownSyscallFaults := by
  refine ⟨fun _ => decode_word_call, fun _ => decode_half_cCall, fun mk ilen n s hcall hn => ?_,
    fun mk ilen n s hcall h5 t a k hr hexec => ?_⟩
  · rw [exec_of_isCall hcall, State.syscall_of_unknown hn]
    rfl
  · rw [exec_of_isCall hcall] at hexec
    cases hexec
    exact State.syscall_status_ne_syscallFault hr h5 ilen a k

/-- Settles O49: number 0 sets the trap state and nothing else. -/
theorem sysExitEndsRun : Obligations.SysExitEndsRun := by
  intro mk ilen s hcall
  rw [exec_of_isCall hcall, State.syscall_zero]
  rfl

/-- Settles O50: the model's check fails exactly when the buffer leaves Memory. -/
theorem syscallBufferCheck : Obligations.SyscallBufferCheck := by
  intro mk ilen n s hcall h1 h5
  refine ⟨fun p l hout => ?_, fun hin => ?_⟩
  · have hfault := State.bufferFault_eq_some_iff.mpr ⟨p, l, hout, rfl⟩
    rw [exec_of_isCall hcall, State.syscall_of_fault h1 h5 hfault]
    rfl
  · have hok := State.bufferFault_eq_none_iff.mpr hin
    exact ⟨_, exec_of_isCall hcall n s, by rw [State.syscall_of_ok h1 h5 hok, State.completeCall_status]⟩

/-- Settles O51: the call completes, and `completeCall` is read field by field. -/
theorem syscallCompletes : Obligations.SyscallCompletes := by
  intro mk ilen n s hcall h1 h5 hin
  have hdone : exec (mk n) s = .next (s.completeCall ilen n) := by
    rw [exec_of_isCall hcall, State.syscall_of_ok h1 h5 (State.bufferFault_eq_none_iff.mpr hin)]
  have hresult : (s.completeCall ilen n).reg 3 = s.hostResult n := s.reg_completeCall ilen n 3
  refine ⟨_, hdone, s.reg_completeCall ilen n 0, fun hn hlen => ?_, fun hother => ?_, fun q h0 h3 => ?_, fun hn => ?_,
    fun hn hm a ha => ?_, ⟨s.hostReads n, s.completeCall_hostCalls ilen n⟩, s.completeCall_status ilen n,
    s.completeCall_breaks ilen n, s.completeCall_cfg ilen n⟩
  · rw [hresult, State.hostResult_eq, if_pos ⟨hn, hlen⟩]
  · rw [hresult, State.hostResult_eq, if_neg hother]
  · rw [State.reg_completeCall, if_neg h0, if_neg h3]
  · have hmem : (s.completeCall ilen n).mem = s.mem := by rw [State.completeCall_mem, State.hostMem_of_ne_read hn]
    exact ⟨hmem, fun a => by rw [hmem]⟩
  · rw [State.completeCall_mem, hn, State.read_hostMem_read hm, if_neg (by omega)]

/-- Settles O52: a call that puts out a request has completed, so the request is `hostRequest` and Memory is the host's. -/
theorem syscallBuffersMoveBytes : Obligations.SyscallBuffersMoveBytes := by
  intro mk ilen n s t q hcall hexec hreq
  rw [exec_of_isCall hcall] at hexec
  obtain rfl := Host.Outcome.next.inj hexec
  obtain hsame | ⟨-, -, hdone⟩ := s.syscall_hostCalls_cases ilen n
  · simp [hsame] at hreq
  · rw [hdone] at hreq ⊢
    have hbytes : q.bytes = s.hostReads n := by
      rw [State.completeCall_hostCalls, List.append_cancel_left_eq, List.singleton_inj] at hreq
      rw [← hreq, State.hostRequest]
    rw [hbytes, State.completeCall_mem]
    refine ⟨fun hn => ?_, fun hn => ?_, fun hn hm i hi => ?_⟩
    · rw [hn, State.hostReads_write]
      exact ⟨Memory.length_readBytes .., fun i hi => Memory.getElem?_readBytes _ hi⟩
    · rw [State.hostReads_path hn]
      exact ⟨Memory.length_readBytes .., fun i hi => Memory.getElem?_readBytes _ hi⟩
    · rw [hn, State.read_hostMem_read hm, if_pos (by omega), Nat.add_sub_cancel_left]

/-! ### Breakpoints -/

/-- Settles O53: the layouts of the two instructions, the frame in every mode, and the stream and the trap state mode by mode. -/
theorem breakpointModes : Obligations.BreakpointModes := by
  refine ⟨fun _ => decode_word_brk, fun _ => decode_half_cBrk, fun i ilen s hi => ?_⟩
  have hexec : exec i s = .next (s.breakpoint ilen) := by
    obtain ⟨rfl, rfl⟩ | ⟨rfl, rfl⟩ := hi <;> exact exec_eq_run ..
  refine ⟨_, hexec, s.reg_breakpoint ilen 0, fun q hq => ?_, s.breakpoint_mem ilen, fun a => ?_, s.breakpoint_hostCalls ilen,
    s.breakpoint_cfg ilen, fun hmode => ?_, fun hmode => ?_, fun hmode => ?_⟩
  · rw [State.reg_breakpoint, if_neg hq]
  · rw [State.breakpoint_mem]
  · simp [State.breakpoint_of_disabled hmode]
  · simp [State.breakpoint_of_notify hmode, State.pc_eq]
  · simp [State.breakpoint_of_halt hmode, State.pc_eq]

end Sys2Proof.Machine
end

section
/-! # The bytes a fetch reads (spec/50_core_blocks.md R192): the compressed case, and the instruction whose bytes stand at the
program counter -/

namespace Sys2Proof

/-- A half-word is its two bytes, the first one low (R31). -/
theorem half_bytes (h : Half) : h.extractLsb' 8 8 ++ h.extractLsb' 0 8 = h :=
  (BitVec.extractLsb'_append_extractLsb'_eq_extractLsb' rfl).trans (extract_self h)

/-- A word is its four bytes, the first one lowest (R31). -/
theorem word_bytes (w : Word) :
    w.extractLsb' 24 8 ++ w.extractLsb' 16 8 ++ w.extractLsb' 8 8 ++ w.extractLsb' 0 8 = w := by
  simp (disch := decide) only [BitVec.extractLsb'_append_extractLsb'_eq_extractLsb']
  exact extract_self w

end Sys2Proof

namespace Sys2Proof.Machine

open Sys2Proof.Claims

/-- The bit that tells the length of an instruction is in the first byte of the word too (R52). -/
theorem Memory.getLsbD_zero_readWord (m : Memory) (a : Nat) : (m.readWord a).getLsbD 0 = (m.read a).getLsbD 0 := by
  rw [Memory.readWord, BitVec.getLsbD_append, if_pos (by omega)]

theorem Memory.readHalf_of_bytes {m : Memory} {a : Nat} {h : Half} (hb : m.readBytes a 2 = (InstBits.half h).bytes) :
    m.readHalf a = h := by
  simp only [Memory.readBytes, InstBits.bytes, List.cons.injEq, and_true] at hb
  obtain ⟨h0, h1⟩ := hb
  rw [Memory.readHalf, h0, h1, half_bytes]

theorem Memory.readWord_of_bytes {m : Memory} {a : Nat} {w : Word} (hb : m.readBytes a 4 = (InstBits.word w).bytes) :
    m.readWord a = w := by
  simp only [Memory.readBytes, InstBits.bytes, List.cons.injEq, and_true] at hb
  obtain ⟨h0, h1, h2, h3⟩ := hb
  rw [Memory.readWord, h0, h1, h2, h3, word_bytes]

/-- A compressed instruction needs only its own two bytes in range. -/
theorem State.fetch_of_compressed {s : State} (hm : ¬Misaligned s s.pc 2) (hr : InRange s s.pc 2)
    (hb : (s.mem.read s.pc.toNat).getLsbD 0 = true) : s.fetch = .ok (.half (s.mem.readHalf s.pc.toNat)) := by
  have hacc : s.accessFault s.pc 2 .fetch = none := State.accessFault_eq_none_iff.mpr ⟨hm, hr⟩
  rw [← Memory.getLsbD_zero_readHalf] at hb
  simp only [State.fetch, State.readHalf, hacc, hb, if_true]

/-- With four bytes in range and bit 0 of the first clear, a fetch gives the word there. -/
theorem State.fetch_of_standard {s : State} (hc : s.cfg.wf = true) (hm : ¬Misaligned s s.pc 2) (hr : InRange s s.pc 4)
    (hb : (s.mem.read s.pc.toNat).getLsbD 0 = false) : s.fetch = .ok (.word (s.mem.readWord s.pc.toNat)) := by
  rw [State.fetch_of_inRange hc hm hr, Memory.getLsbD_zero_readHalf, hb]
  rfl

/-- The fetch unit returns the instruction whose bytes stand at the program counter, if their parity tells their length. -/
theorem State.fetch_of_bytes {s : State} {bits : InstBits} (hc : s.cfg.wf = true) (hm : ¬Misaligned s s.pc 2)
    (hr : InRange s s.pc bits.bytes.length) (hlen : bits.lengthOk)
    (hb : s.mem.readBytes s.pc.toNat bits.bytes.length = bits.bytes) : s.fetch = .ok bits := by
  cases bits with
  | half h =>
    have hhalf := Memory.readHalf_of_bytes hb
    have hodd : (s.mem.read s.pc.toNat).getLsbD 0 = true := by
      rw [← Memory.getLsbD_zero_readHalf, hhalf]
      exact InstBits.lengthOk_half.mp hlen
    rw [State.fetch_of_compressed hm hr hodd, hhalf]
  | word w =>
    have hword := Memory.readWord_of_bytes hb
    have heven : (s.mem.read s.pc.toNat).getLsbD 0 = false := by
      rw [← Memory.getLsbD_zero_readWord, hword]
      exact InstBits.lengthOk_word.mp hlen
    rw [State.fetch_of_standard hc hm hr heven, hword]

end Sys2Proof.Machine
end

section
/-! # Another record of host calls (spec/50_core_blocks.md R197): only a system call looks at it -/

namespace Sys2Proof.Machine

open Sys2Proof.Claims

/-- The state with another record of host calls. -/
def State.withHostCalls (s : State) (qs : List HostRequest) : State := { s with hostCalls := qs }

theorem State.commit_withHostCalls (s : State) (qs : List HostRequest) (ilen : Word) (d : Option (Reg × Word))
    (taken : Option Word) : (s.withHostCalls qs).commit ilen d taken = (s.commit ilen d taken).withHostCalls qs := by
  unfold State.commit
  split
  · split <;> rfl
  · rfl

theorem State.opLoad_withHostCalls (s : State) (qs : List HostRequest) (ilen : Word) (rd base : Reg) (imm : Word) :
    (s.withHostCalls qs).opLoad ilen rd base imm = (s.opLoad ilen rd base imm).withHostCalls qs := by
  cases h : s.accessFault (s.ea base imm) 4 .load with
  | some f =>
    rw [State.opLoad_of_fault h, State.opLoad_of_fault (s := s.withHostCalls qs) h]
    rfl
  | none =>
    rw [State.opLoad_of_ok h, State.opLoad_of_ok (s := s.withHostCalls qs) h]
    exact s.commit_withHostCalls ..

theorem State.opStore_withHostCalls (s : State) (qs : List HostRequest) (ilen : Word) (src base : Reg) (imm : Word) :
    (s.withHostCalls qs).opStore ilen src base imm = (s.opStore ilen src base imm).withHostCalls qs := by
  cases h : s.accessFault (s.ea base imm) 4 .store with
  | some f =>
    rw [State.opStore_of_fault h, State.opStore_of_fault (s := s.withHostCalls qs) h]
    rfl
  | none =>
    rw [State.opStore_of_ok h, State.opStore_of_ok (s := s.withHostCalls qs) h]
    exact State.commit_withHostCalls (s.withMem _) ..

theorem State.breakpoint_withHostCalls (s : State) (qs : List HostRequest) (ilen : Word) :
    (s.withHostCalls qs).breakpoint ilen = (s.breakpoint ilen).withHostCalls qs := by
  cases h : s.cfg.breakMode with
  | disabled =>
    rw [State.breakpoint_of_disabled h, State.breakpoint_of_disabled (s := s.withHostCalls qs) h]
    exact s.commit_withHostCalls ..
  | notify =>
    rw [State.breakpoint_of_notify h, State.breakpoint_of_notify (s := s.withHostCalls qs) h]
    exact (s.notify s.pc).commit_withHostCalls ..
  | halt =>
    rw [State.breakpoint_of_halt h, State.breakpoint_of_halt (s := s.withHostCalls qs) h]
    exact congrArg (State.withStatus · _) ((s.notify s.pc).commit_withHostCalls ..)

/-- Every form but a system call does the same whatever stands in the record of host calls. -/
theorem Form.run_withHostCalls {F : Form} (hF : ∀ ilen n, F ≠ .call ilen n) (s : State) (qs : List HostRequest) :
    F.run (s.withHostCalls qs) = (F.run s).withHostCalls qs := by
  cases F with
  | result ilen rd value => exact s.commit_withHostCalls qs ilen (some (rd, value s.reg)) none
  | branch ilen taken imm => exact s.commit_withHostCalls qs ilen none (if taken s.reg then some imm else none)
  | load ilen rd base imm => exact s.opLoad_withHostCalls ..
  | store ilen src base imm => exact s.opStore_withHostCalls ..
  | call ilen n => exact absurd rfl (hF ilen n)
  | brk ilen => exact s.breakpoint_withHostCalls ..

theorem formOf_ne_call {i : Instr} (h : isCall i = false) (ilen n : Word) : formOf i ≠ .call ilen n := by
  intro hF
  obtain rfl | rfl := formOf_eq_call hF <;> cases h

/-- A step that runs no system call does the same whatever stands in the record of host calls. -/
theorem step_withHostCalls {s t : State} (hcall : ∀ i, Runs s i → isCall i = false) (h : step s = .next t)
    (qs : List HostRequest) : step (s.withHostCalls qs) = .next (t.withHostCalls qs) := by
  obtain ⟨hr, hs⟩ := step_cases h
  cases hs with
  | fetchFault f hf ht =>
    rw [ht]
    exact step_of_fetch_error (s := s.withHostCalls qs) hr hf
  | decodeFault bits e hf hd ht =>
    rw [ht]
    exact step_of_decode_error (s := s.withHostCalls qs) hr hf hd
  | ran i hi ht =>
    rw [ht, ← Form.run_withHostCalls (formOf_ne_call (hcall i hi))]
    exact step_of_runs (s := s.withHostCalls qs) hi

/-- Two states that agree on registers, Memory, trap state and configuration differ in the two output records alone. -/
theorem State.eq_withBreaks_withHostCalls {s s' : State} (hregs : s.regs = s'.regs) (hmem : s.mem = s'.mem)
    (hstatus : s.status = s'.status) (hcfg : s.cfg = s'.cfg) :
    (s.withBreaks s'.breaks).withHostCalls s'.hostCalls = s' := by
  rw [State.withHostCalls, State.withBreaks, hregs, hmem, hstatus, hcfg]

end Sys2Proof.Machine
end

section
/-! # The statements about the step (spec/50_core_blocks.md) -/

namespace Sys2Proof.Machine

open Sys2Proof.Claims

theorem step_eq_exec_of_runs {s : State} {i : Instr} (h : Runs s i) : step s = exec i s := by
  rw [step_of_runs h, exec_eq_run]

theorem isStore_of_formOf {i : Instr} {ilen : Word} {src base : Reg} {imm : Word}
    (h : formOf i = .store ilen src base imm) : isStore i = true := by
  cases i <;> cases h <;> rfl

/-- Settles O7, by the equation of a step that runs an instruction. -/
theorem stepRunsDecoded : Obligations.StepRunsDecoded :=
  fun _ bits _ hr hf hd => step_eq_exec_of_runs ⟨hr, bits, hf, hd⟩

/-- Settles O8: the fetch unit returns the encoding, and the decoder gives the instruction back. -/
theorem stepRunsEncoded : Obligations.StepRunsEncoded := by
  intro s i hr hc hwf hbytes hin hal
  have hfetch : s.fetch = .ok (encode i) := State.fetch_of_bytes hc hal hin (lengthOk_encode i) hbytes
  exact step_eq_exec_of_runs ⟨hr, encode i, hfetch, decode_encode hwf⟩

/-- Settles O9, by the equation of the fetch in each of the five cases. -/
theorem fetchUnitReadsInstruction : Obligations.FetchUnitReadsInstruction := by
  intro s hc
  refine ⟨fun hmis => ?_, fun hal hout => ?_, fun hal hin hodd => State.fetch_of_compressed hal hin hodd,
    fun hal hin heven hout => ?_, fun hal heven hin => State.fetch_of_standard hc hal hin heven,
    fun f hr hf => step_of_fetch_error hr hf⟩
  · exact State.fetch_of_fault (State.accessFault_some.mpr (.inl ⟨hmis.1, hmis.2, rfl⟩))
  · exact State.fetch_of_fault (State.accessFault_outOfRange .fetch hal (Nat.not_le_of_lt hout))
  · have hfirst : s.accessFault s.pc 2 .fetch = none := State.accessFault_eq_none_iff.mpr ⟨hal, hin⟩
    rw [← Memory.getLsbD_zero_readHalf] at heven
    exact State.fetch_of_second_half_out hfirst heven (Nat.not_le_of_lt hout)

/-- Settles O10: a terminal state answers `halted`, and every reset event sets `Running`. -/
theorem noStepWhenTerminal : Obligations.NoStepWhenTerminal := by
  intro s h
  refine ⟨fun t ht => ?_, fun _ => rfl⟩
  cases (step_of_not_running h).symm.trans ht

/-- Settles O11, along the step: a fetch fault, a decode fault and every instruction have a next state. -/
theorem runningStateSteps : Obligations.RunningStateSteps := by
  intro s hr
  cases hf : s.fetch with
  | error f => exact ⟨_, step_of_fetch_error hr hf⟩
  | ok bits =>
    cases hd : decode bits with
    | error e => exact ⟨_, step_of_decode_error hr hf hd⟩
    | ok i => exact ⟨_, step_of_runs ⟨hr, bits, hf, hd⟩⟩

/-- Settles O18, by induction along the run: O17 at the start and at every reset, O15 for every step. -/
theorem reachableHasInv : Obligations.ReachableHasInv := by
  intro s h
  induction h with
  | boot c b hc hb => exact bootHasInv c b hc hb
  | step s t hs h ih => exact stepKeepsInv s t ih h
  | reset s b hs hb ih => exact bootHasInv s.cfg b ih.1 hb

/-- Settles O21: of the forms only a store and a call write Memory, and of the calls only number 1. -/
theorem onlyStoreOrReadCallWritesMemory : Obligations.OnlyStoreOrReadCallWritesMemory := by
  intro i s t hexec hstore hcall hcCall
  have ht := exec_eq_next_iff.mp hexec
  have hmem : t.mem = s.mem := by
    cases ht ▸ (formOf i).run_memEffect s with
    | unchanged h => exact h
    | stored ilen src base imm hF hacc h => cases hstore.symm.trans (isStore_of_formOf hF)
    | answered ilen n hF hbuf h =>
      have hn : n ≠ 1 := by
        rintro rfl
        exact (formOf_eq_call hF).elim hcall hcCall
      rw [h, State.hostMem_of_ne_read hn]
  exact ⟨hmem, fun a => by rw [hmem]⟩

/-- Settles O25: the two states differ in the two output records, and a step commutes with replacing each of them. -/
theorem stepIsFunctionOfCoreState : Obligations.StepIsFunctionOfCoreState := by
  intro s s' t hregs hmem hstatus hcfg hcall h
  obtain ⟨e, -, hbreaks⟩ := notificationStreamWriteOnly s t s'.breaks h
  have hstep := step_withHostCalls (s := s.withBreaks s'.breaks) hcall hbreaks s'.hostCalls
  rw [State.eq_withBreaks_withHostCalls hregs hmem hstatus hcfg] at hstep
  exact ⟨_, hstep, rfl, rfl, rfl, rfl⟩

end Sys2Proof.Machine
end

section
/-! # The statements about the exceptions (spec/60_exceptions.md) -/

namespace Sys2Proof.Machine

open Sys2Proof.Claims

/-! ### The steps that end in a fault -/

/-- No instruction executes after a fault (R200, R226). -/
theorem step_faulted_ne_next (s : State) (f : FaultReport) (t : State) : step (faulted s f) ≠ .next t :=
  (noStepWhenTerminal (faulted s f) Status.noConfusion).1 t

/-- What is raised is what the trap state reports. -/
theorem eq_faulted_of_raise {s t : State} {f g : FaultReport} (ht : t = s.raise g) (hf : t.status = .faulted f) :
    t = faulted s f := by
  subst ht
  cases hf
  rfl

/-- A step leaves the trap state `Faulted` only by raising the fault it names, whichever fault that is (R226). -/
theorem eq_faulted_of_step {s t : State} {f : FaultReport} (h : step s = .next t) (hf : t.status = .faulted f) :
    t = faulted s f := by
  cases step_ending h with
  | running hrun => cases hrun.symm.trans hf
  | memoryFault addr access cause ht => exact eq_faulted_of_raise ht hf
  | decodeFault bits ht => exact eq_faulted_of_raise ht hf
  | syscallFault n hi hn ht => exact eq_faulted_of_raise ht hf
  | exited hi ht => cases (congrArg State.status ht).symm.trans hf
  | breakHalted hi hm hhalt => cases hhalt.symm.trans hf

/-! ### DecodeFault (R221) -/

/-- An instruction that decodes and runs never raises DecodeFault, whatever its operands. -/
theorem Form.run_status_ne_decodeFault (F : Form) {s : State} (hr : s.status = .running) (a : Word) (op : BitVec 6)
    (bits : InstBits) : (F.run s).status ≠ .faulted (.decode a op bits) := by
  intro hdec
  cases F.run_ending s with
  | unchanged h => cases hr.symm.trans (h.symm.trans hdec)
  | memoryFault addr access cause h => cases (congrArg State.status h).symm.trans hdec
  | syscallFault ilen n hF hn h => cases (congrArg State.status h).symm.trans hdec
  | exited ilen hF h => cases (congrArg State.status h).symm.trans hdec
  | breakHalted ilen hF hm h => cases h.symm.trans hdec

/-- A fetch fault is a MemoryFault and a decoded instruction raises no DecodeFault, so a step that ends in one fetched bits
the decoder refuses. -/
theorem decode_error_of_step_decodeFault {s t : State} {a : Word} {op : BitVec 6} {bits : InstBits}
    (h : step s = .next t) (hdec : t.status = .faulted (.decode a op bits)) :
    s.fetch = .ok bits ∧ a = s.pc ∧ op = bits.opcode ∧ ∃ e, decode bits = .error e := by
  obtain ⟨hr, hs⟩ := step_cases h
  cases hs with
  | fetchFault f hf ht =>
    obtain ⟨addr, c, rfl⟩ := State.fetch_error_memory hf
    cases (congrArg State.status ht).symm.trans hdec
  | decodeFault bits' e hf hd ht =>
    cases (congrArg State.status ht).symm.trans hdec
    exact ⟨hf, rfl, rfl, e, hd⟩
  | ran i hi ht => exact absurd (ht ▸ hdec) ((formOf i).run_status_ne_decodeFault hr a op bits)

/-! ### The obligations -/

/-- Settles O12: of the bits the fetch unit returns the decoder refuses exactly those with an unassigned opcode, and no other
way a step can go raises DecodeFault. -/
theorem decodeFaultExactly : Obligations.DecodeFaultExactly := by
  refine ⟨fun s bits hr hf hop => ⟨?_, step_faulted_ne_next s _⟩, fun s t a op bits _ h hdec => ?_⟩
  · have hrefused : decode bits = .error (.unassignedOpcode bits.opcode) :=
      (decode_eq_error_iff (State.lengthOk_of_fetch hf)).mpr ⟨hop, rfl⟩
    exact step_of_decode_error hr hf hrefused
  · obtain ⟨hf, ha, rfl, e, hd⟩ := decode_error_of_step_decodeFault h hdec
    exact ⟨hf, ha, rfl, ((decode_eq_error_iff (State.lengthOk_of_fetch hf)).mp hd).1⟩

/-- Settles O13: every way a step can end in a fault is the raising of that fault, and the state it leaves is terminal. -/
theorem faultsArePrecise : Obligations.FaultsArePrecise := by
  intro s t f _ h hf
  obtain rfl := eq_faulted_of_step h hf
  exact ⟨rfl, step_faulted_ne_next s f⟩

/-- Settles O57: each conjunct is one row of the table, which is one equation of `Status.code`. -/
theorem statusPortCodes : Obligations.StatusPortCodes :=
  ⟨rfl, fun _ _ _ => rfl, fun _ _ => rfl, fun _ _ _ => rfl, fun _ _ => rfl, fun _ => rfl, fun _ => rfl⟩

end Sys2Proof.Machine
end

section
/-! # The reset event (spec/70_reset_and_hazards.md R250) -/

namespace Sys2Proof.Machine

/-- The record of host calls, all that the reset event keeps besides the configuration, is no register. -/
@[simp] theorem State.reg_resetEvent (s : State) (b : Boot) (r : Reg) :
    (s.resetEvent b).reg r = (State.boot s.cfg b).reg r := rfl

@[simp] theorem State.resetEvent_status (s : State) (b : Boot) : (s.resetEvent b).status = .running := rfl

@[simp] theorem State.resetEvent_breaks (s : State) (b : Boot) : (s.resetEvent b).breaks = [] := rfl

/-- Settles O55: the reset event is the reset state up to the record of host calls, so its registers are those of `reg_boot`. -/
theorem resetFromAnyState : Obligations.ResetFromAnyState := by
  intro s b
  refine ⟨rfl, ?_, ?_, s.resetEvent_status b, s.resetEvent_breaks b⟩
  · rw [State.reg_resetEvent, State.reg_boot, if_neg (by decide), if_pos rfl]
  · rw [State.reg_resetEvent, State.reg_boot, if_pos rfl]

end Sys2Proof.Machine
end
